-- ==== Sys2Proof/Word.lean ====
section
/-! DEFINITION. The two word types of the core (10_state.md R21, R28; 00_scope.md R8). -/

namespace Sys2Proof

/-- A memory cell, a register, the flags register, an opcode or operand byte: 8 bits, unsigned
(10_state.md R21, R33, R42; parameters CELL_WIDTH, REG_WIDTH, FL_WIDTH of 00_scope.md R8). -/
abbrev Byte := BitVec 8

/-- The program counter: 9 bits, of which the values 0..258 occur (10_state.md R28, parameter PC_WIDTH). -/
abbrev PcWord := BitVec 9

end Sys2Proof
end

