-- ==== Sys2Proof/Syntax.lean ====
section
/-! DEFINITION. The syntax of the core: the eight register names, the 34 opcode names and the
instructions, one constructor per row of spec/opcode_table.json (30_encoding.md R86 to R88). -/

namespace Sys2Proof

/-- The registers R0..R7 (10_state.md R20); `r7` is the stack pointer SP (R23). -/
inductive Reg where
  | r0 | r1 | r2 | r3 | r4 | r5 | r6 | r7
  deriving DecidableEq, Repr

/-- The register index 0..7 (10_state.md R20). -/
def Reg.index : Reg → Nat
  | .r0 => 0 | .r1 => 1 | .r2 => 2 | .r3 => 3 | .r4 => 4 | .r5 => 5 | .r6 => 6 | .r7 => 7

/-- The 34 named opcodes (30_encoding.md R87, R88). -/
inductive Opcode where
  | nop | hlt | ret | push | pop | prn | call | jmp | jeq
  | jne | inc | dec | not | ldi | add | sub | mul | div
  | mod | cmp | and | or | xor | shl | shr | iret | pra
  | int | jgt | jlt | jle | jge | ld | st
  deriving DecidableEq, Repr

/-- All named opcodes, in the order of spec/opcode_table.json. -/
def Opcode.all : List Opcode :=
  [.nop, .hlt, .ret, .push, .pop, .prn, .call, .jmp, .jeq,
    .jne, .inc, .dec, .not, .ldi, .add, .sub, .mul, .div,
    .mod, .cmp, .and, .or, .xor, .shl, .shr, .iret, .pra,
    .int, .jgt, .jlt, .jle, .jge, .ld, .st]

/-- Whether the opcode has a handler (30_encoding.md R87) or is only reserved (R88). -/
def Opcode.implemented : Opcode → Bool
  | .iret | .pra | .int | .jgt | .jlt | .jle | .jge | .ld | .st => false
  | .nop | .hlt | .ret | .push | .pop | .prn | .call | .jmp | .jeq | .jne | .inc | .dec | .not | .ldi
  | .add | .sub | .mul | .div | .mod | .cmp | .and | .or | .xor | .shl | .shr => true

/-- The instructions. An operand is the WHOLE operand byte (30_encoding.md R91): `a` and `b` are register
operands, whose values 8..255 are instructions that raise when executed (R92, log entry 6); `imm` is LDI's
immediate (R93). A reserved opcode carries its operand bytes only so that it can be spelled
(44_reserved.md R185, log entry 5). -/
inductive Instr where
  /-- NOP: no operation (43_plain.md R170). -/
  | nop
  /-- HLT: halt (43_plain.md R171). -/
  | hlt
  /-- RET: return from subroutine (41_control_flow.md R145). -/
  | ret
  /-- PUSH: push a register (42_stack.md R161). -/
  | push (a : Byte)
  /-- POP: pop into a register (42_stack.md R162). -/
  | pop (a : Byte)
  /-- PRN: print number (43_plain.md R173). -/
  | prn (a : Byte)
  /-- CALL: call subroutine (41_control_flow.md R144). -/
  | call (a : Byte)
  /-- JMP: unconditional jump (41_control_flow.md R141). -/
  | jmp (a : Byte)
  /-- JEQ: jump if equal (41_control_flow.md R142). -/
  | jeq (a : Byte)
  /-- JNE: jump if not equal (41_control_flow.md R143). -/
  | jne (a : Byte)
  /-- INC: increment (40_alu.md R115). -/
  | inc (a : Byte)
  /-- DEC: decrement (40_alu.md R116). -/
  | dec (a : Byte)
  /-- NOT: bitwise complement (40_alu.md R119). -/
  | not (a : Byte)
  /-- LDI: load immediate (43_plain.md R172). -/
  | ldi (a imm : Byte)
  /-- ADD: add (40_alu.md R110). -/
  | add (a b : Byte)
  /-- SUB: subtract (40_alu.md R111). -/
  | sub (a b : Byte)
  /-- MUL: multiply (40_alu.md R112). -/
  | mul (a b : Byte)
  /-- DIV: unsigned quotient (40_alu.md R113). -/
  | div (a b : Byte)
  /-- MOD: unsigned remainder (40_alu.md R114). -/
  | mod (a b : Byte)
  /-- CMP: compare, unsigned (40_alu.md R117). -/
  | cmp (a b : Byte)
  /-- AND: bitwise and (40_alu.md R118). -/
  | and (a b : Byte)
  /-- OR: bitwise or (40_alu.md R120). -/
  | or (a b : Byte)
  /-- XOR: bitwise exclusive or (40_alu.md R121). -/
  | xor (a b : Byte)
  /-- SHL: shift left (40_alu.md R122). -/
  | shl (a b : Byte)
  /-- SHR: logical shift right (40_alu.md R123). -/
  | shr (a b : Byte)
  /-- IRET: reserved (44_reserved.md R184). -/
  | iret
  /-- PRA: reserved (44_reserved.md R182). -/
  | pra (a : Byte)
  /-- INT: reserved (44_reserved.md R184). -/
  | int (a : Byte)
  /-- JGT: reserved (44_reserved.md R183). -/
  | jgt (a : Byte)
  /-- JLT: reserved (44_reserved.md R183). -/
  | jlt (a : Byte)
  /-- JLE: reserved (44_reserved.md R183). -/
  | jle (a : Byte)
  /-- JGE: reserved (44_reserved.md R183). -/
  | jge (a : Byte)
  /-- LD: reserved (44_reserved.md R181). -/
  | ld (a b : Byte)
  /-- ST: reserved (44_reserved.md R181). -/
  | st (a b : Byte)
  deriving DecidableEq, Repr

/-- The opcode of an instruction. -/
def Instr.opcode : Instr → Opcode
  | .nop => .nop
  | .hlt => .hlt
  | .ret => .ret
  | .push _ => .push
  | .pop _ => .pop
  | .prn _ => .prn
  | .call _ => .call
  | .jmp _ => .jmp
  | .jeq _ => .jeq
  | .jne _ => .jne
  | .inc _ => .inc
  | .dec _ => .dec
  | .not _ => .not
  | .ldi _ _ => .ldi
  | .add _ _ => .add
  | .sub _ _ => .sub
  | .mul _ _ => .mul
  | .div _ _ => .div
  | .mod _ _ => .mod
  | .cmp _ _ => .cmp
  | .and _ _ => .and
  | .or _ _ => .or
  | .xor _ _ => .xor
  | .shl _ _ => .shl
  | .shr _ _ => .shr
  | .iret => .iret
  | .pra _ => .pra
  | .int _ => .int
  | .jgt _ => .jgt
  | .jlt _ => .jlt
  | .jle _ => .jle
  | .jge _ => .jge
  | .ld _ _ => .ld
  | .st _ _ => .st

/-- The operand bytes in the order they stand in memory: opA, then opB (30_encoding.md R86, R91). -/
def Instr.operands : Instr → List Byte
  | .nop => []
  | .hlt => []
  | .ret => []
  | .push a => [a]
  | .pop a => [a]
  | .prn a => [a]
  | .call a => [a]
  | .jmp a => [a]
  | .jeq a => [a]
  | .jne a => [a]
  | .inc a => [a]
  | .dec a => [a]
  | .not a => [a]
  | .ldi a imm => [a, imm]
  | .add a b => [a, b]
  | .sub a b => [a, b]
  | .mul a b => [a, b]
  | .div a b => [a, b]
  | .mod a b => [a, b]
  | .cmp a b => [a, b]
  | .and a b => [a, b]
  | .or a b => [a, b]
  | .xor a b => [a, b]
  | .shl a b => [a, b]
  | .shr a b => [a, b]
  | .iret => []
  | .pra a => [a]
  | .int a => [a]
  | .jgt a => [a]
  | .jlt a => [a]
  | .jle a => [a]
  | .jge a => [a]
  | .ld a b => [a, b]
  | .st a b => [a, b]

end Sys2Proof
end

