-- ==== Sys2Proof/Config.lean ====
section
/-! DEFINITION. The parameters of the implementation that 00_scope.md R8 asks a model to carry as
configuration fields. Their values for this hardware are `Sys2Proof.Machine.params` (Machine/Params.lean).
MEM_SIZE, NUM_REGS, SP_INDEX and the widths are fixed by the spec and are literals of the definitions that
use them. -/

namespace Sys2Proof

/-- What executing a reserved opcode does (parameter RESERVED_EXEC). The fault is the one value the spec gives
(44_reserved.md R180, R185). -/
inductive ReservedExec where
  /-- It raises InvalidOpcode with the opcode byte (decision D8). -/
  | invalidOpcode
  deriving DecidableEq, Repr

/-- The configuration of one core (00_scope.md R8). -/
structure Config where
  /-- GPR_RESET: the value of R0..R6 after reset (10_state.md R26, decision D2). -/
  gprReset : Byte
  /-- SP_RESET: the value of R7 after reset (10_state.md R25). -/
  spReset : Byte
  /-- PC_RESET: the value of pc after reset (10_state.md R32). -/
  pcReset : PcWord
  /-- FL_RESET: the value of FL after reset (10_state.md R37, decision D3). -/
  flReset : Byte
  /-- MEM_RESET: the value of every cell after reset (10_state.md R44). -/
  memReset : Byte
  /-- HLT_ADVANCES_PC: whether HLT adds 1 to pc (43_plain.md R171, decision D13). -/
  hltAdvancesPc : Bool
  /-- MAX_LOAD: the largest number of program bytes the host may load (50_interfaces.md R212, decision D27). -/
  maxLoad : Nat
  /-- OPCODE_MAP: the byte of each of the 34 named opcodes (30_encoding.md R87 to R89, decision D1). -/
  opcodeMap : Opcode → Byte
  /-- RESERVED_EXEC: what executing a reserved opcode does (44_reserved.md R180, decision D8). -/
  reservedExec : ReservedExec

end Sys2Proof
end

