-- ==== Sys2Proof/Machine/Params.lean ====
section
/-! DEFINITION. The values the parameters of 00_scope.md R8 take on this hardware. -/

namespace Sys2Proof.Machine

/-- The 34-row table of 30_encoding.md R87, R88. HLT, PRN, LDI and ADD are attested by the source; the other 30
bytes rest on decision D1 (log entry 1, UNVERIFIED). -/
def opcodeTable : Opcode → Byte
  | .nop => 0b00000000
  | .hlt => 0b00000001
  | .ret => 0b00010001
  | .push => 0b01000101
  | .pop => 0b01000110
  | .prn => 0b01000111
  | .call => 0b01010000
  | .jmp => 0b01010100
  | .jeq => 0b01010101
  | .jne => 0b01010110
  | .inc => 0b01100101
  | .dec => 0b01100110
  | .not => 0b01101001
  | .ldi => 0b10000010
  | .add => 0b10100000
  | .sub => 0b10100001
  | .mul => 0b10100010
  | .div => 0b10100011
  | .mod => 0b10100100
  | .cmp => 0b10100111
  | .and => 0b10101000
  | .or => 0b10101010
  | .xor => 0b10101011
  | .shl => 0b10101100
  | .shr => 0b10101101
  | .iret => 0b00010011
  | .pra => 0b01001000
  | .int => 0b01010010
  | .jgt => 0b01010111
  | .jlt => 0b01011000
  | .jle => 0b01011001
  | .jge => 0b01011010
  | .ld => 0b10000011
  | .st => 0b10000100

/-- The parameter values of 00_scope.md R8. `spReset`, `pcReset` and `memReset` are the source's;
`opcodeMap` (D1), `gprReset` (D2), `flReset` (D3), `reservedExec` (D8), `hltAdvancesPc` (D13) and `maxLoad` (D27)
are decisions of 92_eei_decisions.md (log entries 1, 2, 25, 9 and 17, UNVERIFIED). -/
def params : Config where
  gprReset := 0x00
  spReset := 0xF4
  pcReset := 0
  flReset := 0x00
  memReset := 0x00
  hltAdvancesPc := false
  maxLoad := 256
  opcodeMap := opcodeTable
  reservedExec := .invalidOpcode

end Sys2Proof.Machine
end

