-- ==== Sys2Proof/Machine/State.lean ====
section
/-! DEFINITION. The state of the core as plain data (10_state.md), the reasons a step of the model can stop,
and the state after reset (10_state.md R46). -/

namespace Sys2Proof.Machine

/-- The register file: eight 8-bit registers (10_state.md R20, R21), `r7` the stack pointer (R23). -/
structure RegFile where
  r0 : Byte
  r1 : Byte
  r2 : Byte
  r3 : Byte
  r4 : Byte
  r5 : Byte
  r6 : Byte
  r7 : Byte
  deriving DecidableEq, Repr

/-- The 256 cells as a sorted list of (address, byte), an unlisted address holding `Memory.unlisted`
(10_state.md R42; log entry 15). -/
abbrev Memory := List Host.Cell

/-- What an address that the list does not name reads as: the reset value of a cell, 0 (10_state.md R44:
"allocated at CPU construction, zero-initialized"). -/
def Memory.unlisted : Byte := params.memReset

/-- The canonical form from address `lo` up: addresses strictly rising, none above 255, no entry equal to
what an unlisted address reads as. -/
def Memory.wfFrom : Nat → Memory → Bool
  | _, [] => true
  | lo, (k, v) :: m => decide (lo ≤ k) && decide (k ≤ 255) && decide (v ≠ Memory.unlisted) && Memory.wfFrom (k + 1) m

/-- The canonical form of a memory: equal memories are equal lists. -/
def Memory.wf (m : Memory) : Bool := Memory.wfFrom 0 m

/-- The run state (10_state.md R39; 45_execution_loop.md R190). -/
inductive RunState where
  | running
  | halted
  | faulted
  deriving DecidableEq, Repr

/-- Which index was out of range (60_exceptions.md R233, R236). -/
inductive Space where
  | mem
  | reg
  deriving DecidableEq, Repr

/-- The kind of a hardware fault together with its information value (60_exceptions.md R230, R236). -/
inductive FaultCause where
  /-- The opcode byte is reserved or undefined (R231); the information value is the byte. -/
  | invalidOpcode (b : Byte)
  /-- DIV or MOD by a register that holds 0 (R232); the information value is unused and 0. -/
  | divisionByZero
  /-- A memory or register index outside valid bounds (R233); the information value is the space and the index. -/
  | addressOutOfRange (sp : Space) (index : Nat)
  deriving DecidableEq, Repr

/-- The fault record (60_exceptions.md R236). -/
structure FaultRecord where
  /-- The kind and the information value. -/
  cause : FaultCause
  /-- The value of pc when the step began. -/
  fpc : PcWord
  deriving DecidableEq, Repr

/-- The complete state of the core (10_state.md R38, R41, R46) and the output log (50_interfaces.md R215). -/
structure State where
  /-- R0..R7 (10_state.md R20). -/
  regs : RegFile
  /-- The program counter (10_state.md R27, R28). -/
  pc : PcWord
  /-- The flags register (10_state.md R33). -/
  fl : Byte
  /-- The memory (10_state.md R42). -/
  mem : Memory
  /-- The run state (10_state.md R39). -/
  run : RunState
  /-- The fault record, absent until a fault is raised (10_state.md R40). -/
  fault : Option FaultRecord
  /-- The bytes emitted so far, oldest first (50_interfaces.md R215). -/
  out : List Byte
  deriving DecidableEq, Repr

/-- Reasons for which a step of the MODEL would stop with a fault. There is none: the entry into every
hardware fault is described by the spec (60_exceptions.md R237) and is a next state whose run state is
Faulted, and every state has exactly one successor (45_execution_loop.md R191). Nothing raises a `Fault`
(safe; log entry 4). -/
inductive Fault where
  deriving DecidableEq, Repr

/-- Reasons for which the model gives no meaning. -/
inductive Refusal where
  /-- An instruction that has no meaning in the model. No arm of `exec` answers it: every instruction has its
  meaning (safe). -/
  | notModelled (mnemonic : String)
  /-- Raised by `launch` alone: the host offers a program of `n` bytes, more than MAX_LOAD
  (50_interfaces.md R212, decision D27: "the model refuses a program longer than 256 bytes"; safe, log entry 17). -/
  | programTooLong (n : Nat)
  deriving DecidableEq, Repr

/-- The state right after reset (10_state.md R46; 70_reset_and_hazards.md R260). -/
def State.reset : State where
  regs :=
    { r0 := params.gprReset, r1 := params.gprReset, r2 := params.gprReset, r3 := params.gprReset
      r4 := params.gprReset, r5 := params.gprReset, r6 := params.gprReset, r7 := params.spReset }
  pc := params.pcReset
  fl := params.flReset
  mem := []
  run := .running
  fault := none
  out := []

end Sys2Proof.Machine
end

