-- ==== Sys2Proof/Machine/Ops.lean ====
section
/-! DEFINITION. The named operations over registers and memory, and the one shared operation that takes a
fault (00_scope.md R11, R12, R13; 60_exceptions.md R237). -/

namespace Sys2Proof.Machine

/-- The residue modulo 256 of any integer, `mask8` (00_scope.md R10). -/
def mask8 (v : Int) : Byte := BitVec.ofInt 8 v

/-- Reading a register slot (10_state.md R20). -/
def RegFile.get (f : RegFile) : Reg → Byte
  | .r0 => f.r0 | .r1 => f.r1 | .r2 => f.r2 | .r3 => f.r3
  | .r4 => f.r4 | .r5 => f.r5 | .r6 => f.r6 | .r7 => f.r7

/-- Writing a register slot (10_state.md R20). -/
def RegFile.set (f : RegFile) (r : Reg) (v : Byte) : RegFile :=
  match r with
  | .r0 => { f with r0 := v } | .r1 => { f with r1 := v } | .r2 => { f with r2 := v } | .r3 => { f with r3 := v }
  | .r4 => { f with r4 := v } | .r5 => { f with r5 := v } | .r6 => { f with r6 := v } | .r7 => { f with r7 := v }

/-- The byte at an address: the listed one, or what an unlisted address reads as (20_memory.md R55). -/
def Memory.byteAt : Memory → Nat → Byte
  | [], _ => Memory.unlisted
  | (k, v) :: m, a => if a = k then v else Memory.byteAt m a

/-- Insert a cell before the first listed address above it. -/
def Memory.insert : Memory → Nat → Byte → Memory
  | [], a, v => [(a, v)]
  | (k, w) :: m, a, v => if a < k then (a, v) :: (k, w) :: m else (k, w) :: Memory.insert m a v

/-- Write one cell and no other, keeping the canonical form: the value an unlisted address reads as is not
listed (20_memory.md R55; log entry 15). -/
def Memory.store (m : Memory) (a : Nat) (v : Byte) : Memory :=
  let others := m.filter fun c => c.1 != a
  if v = Memory.unlisted then others else Memory.insert others a v

/-- `x[r]` (00_scope.md R11). -/
def State.reg (s : State) (r : Reg) : Byte := s.regs.get r

/-- `x[r] <- v` (00_scope.md R11); the 8-bit type is the mask of 10_state.md R21. -/
def State.setReg (s : State) (r : Reg) (v : Byte) : State := { s with regs := s.regs.set r v }

/-- `pc <- target` for an 8-bit target, placed in the 9-bit pc with its high bit zero (41_control_flow.md R140, R141). -/
def State.jumpTo (s : State) (target : Byte) : State := { s with pc := target.setWidth 9 }

/-- `pc <- pc + n`, not reduced modulo 256 (45_execution_loop.md R196; 10_state.md R28). -/
def State.advance (s : State) (n : Nat) : State := { s with pc := s.pc + BitVec.ofNat 9 n }

/-- `FL <- v` (00_scope.md R11). -/
def State.setFl (s : State) (v : Byte) : State := { s with fl := v }

/-- `Mem[a]` (00_scope.md R11). -/
def State.byteAt (s : State) (a : Nat) : Byte := s.mem.byteAt a

/-- `Mem[a] <- v` (00_scope.md R11). -/
def State.setByte (s : State) (a : Nat) (v : Byte) : State := { s with mem := s.mem.store a v }

/-- `emit(v)`: append one byte to the output log (00_scope.md R12; 50_interfaces.md R215). -/
def State.emit (s : State) (v : Byte) : State := { s with out := s.out ++ [v] }

/-- `run <- Halted` (43_plain.md R171). -/
def State.halt (s : State) : State := { s with run := .halted }

/-- `x[7] <- mask8(x[7] - 1)` (42_stack.md R160, R161; 20_memory.md R58). -/
def State.decSp (s : State) : State := s.setReg .r7 (mask8 ((s.reg .r7).toNat - 1))

/-- `x[7] <- mask8(x[7] + 1)` (42_stack.md R160, R162; 20_memory.md R58). -/
def State.incSp (s : State) : State := s.setReg .r7 (mask8 ((s.reg .r7).toNat + 1))

/-- The result of a check phase, or the fault it raises (00_scope.md R13). -/
abbrev Check (α : Type) := Except FaultCause α

/-- `MemRead(addr, 1)` (00_scope.md R12; 20_memory.md R57). -/
def memRead (addr : Nat) (s : State) : Check Byte :=
  if addr > 255 then .error (.addressOutOfRange .mem addr) else .ok (s.byteAt addr)

/-- `MemWrite(addr, 1, v)` (00_scope.md R12; 20_memory.md R57). -/
def memWrite (addr : Nat) (v : Byte) (s : State) : Check State :=
  if addr > 255 then .error (.addressOutOfRange .mem addr) else .ok (s.setByte addr v)

/-- TAKING A FAULT, `raise K(info)`: `run <- Faulted`, `fault <- (K, pc, info)`, and nothing else
(00_scope.md R12; 60_exceptions.md R236, R237). There is no return from it (R241). -/
def raise (c : FaultCause) (s : State) : State :=
  { s with run := .faulted, fault := some { cause := c, fpc := s.pc } }

/-- The end of an instruction begun in `s`: the state its two phases computed, or, when a check raised, the
fault taken in `s` itself, so that no partial write is left (00_scope.md R13; decision D14). -/
def conclude (s : State) (r : Check State) : Host.Outcome State Fault Refusal :=
  match r with
  | .ok t => .next t
  | .error c => .next (raise c s)

end Sys2Proof.Machine
end

