-- ==== Sys2Proof/Machine/Flags.lean ====
section
/-! DEFINITION. The flags register: its three bits and what CMP writes (10_state.md R33 to R36). -/

namespace Sys2Proof.Machine

/-- FL_E, bit 0 alone (00_scope.md R11; 10_state.md R33). -/
def flagE : Byte := 0x01

/-- FL_G, bit 1 alone. -/
def flagG : Byte := 0x02

/-- FL_L, bit 2 alone. -/
def flagL : Byte := 0x04

/-- `FL.E = FL[0]`: equal (10_state.md R33). -/
def State.equalFlag (s : State) : Bool := s.fl.getLsbD 0

/-- `FL.G = FL[1]`: greater-than; read by no implemented instruction (10_state.md R35). -/
def State.greaterFlag (s : State) : Bool := s.fl.getLsbD 1

/-- `FL.L = FL[2]`: less-than; read by no implemented instruction (10_state.md R35). -/
def State.lessFlag (s : State) : Bool := s.fl.getLsbD 2

/-- What CMP writes into FL for the left value `x` and the right value `y`, compared unsigned
(40_alu.md R117). -/
def compareFlags (x y : Byte) : Byte :=
  if x = y then flagE else if x.toNat > y.toNat then flagG else flagL

end Sys2Proof.Machine
end

