-- ==== Sys2Proof/Machine/Operands.lean ====
section
/-! DEFINITION. The operand forms: the register operand (30_encoding.md R92), one and two of them. The
immediate of LDI is the operand byte itself (R93); there is no other form (42_stack.md R165). -/

namespace Sys2Proof.Machine

/-- The register an index names (10_state.md R20). -/
def regOfIndex : Nat → Option Reg
  | 0 => some .r0 | 1 => some .r1 | 2 => some .r2 | 3 => some .r3
  | 4 => some .r4 | 5 => some .r5 | 6 => some .r6 | 7 => some .r7
  | _ => none

/-- `ridx(b)`: the whole operand byte is the index; 8..255 raises AddressOutOfRange(reg, b)
(00_scope.md R12; 30_encoding.md R92, decision D6). -/
def ridx (b : Byte) : Check Reg :=
  match regOfIndex b.toNat with
  | some r => .ok r
  | none => .error (.addressOutOfRange .reg b.toNat)

/-- An instruction with one register operand: check it, then go on (format R, and RI's opA). -/
def withReg (a : Byte) (s : State) (body : Reg → Check State) : Host.Outcome State Fault Refusal :=
  conclude s (ridx a >>= body)

/-- An instruction with two register operands: check opA, then opB, then go on (format RR; 40_alu.md R126). -/
def withRegs (a b : Byte) (s : State) (body : Reg → Reg → Check State) : Host.Outcome State Fault Refusal :=
  conclude s (ridx a >>= fun ra => ridx b >>= fun rb => body ra rb)

end Sys2Proof.Machine
end

