-- ==== Sys2Proof/Machine/Alu.lean ====
section
/-! DEFINITION. The 14 ALU instructions (40_alu.md). All arithmetic is on unsigned 8-bit values, taken
exactly on integers and masked at the end (R127, R128). No ALU instruction but CMP writes FL (R125). -/

namespace Sys2Proof.Machine

/-- ADD's result (40_alu.md R110). -/
def aluAdd (x y : Byte) : Byte := mask8 ((x.toNat : Int) + y.toNat)

/-- SUB's result (40_alu.md R111, decision D9, log entry 7). -/
def aluSub (x y : Byte) : Byte := mask8 ((x.toNat : Int) - y.toNat)

/-- MUL's result: the low byte of the product (40_alu.md R112, R130). -/
def aluMul (x y : Byte) : Byte := mask8 ((x.toNat : Int) * y.toNat)

/-- DIV's quotient for a divisor other than 0 (40_alu.md R113, R129, decision D10, log entry 7). -/
def aluDiv (x y : Byte) : Byte := mask8 ((x.toNat / y.toNat : Nat) : Int)

/-- MOD's remainder for a divisor other than 0 (40_alu.md R114, R129). -/
def aluMod (x y : Byte) : Byte := mask8 ((x.toNat % y.toNat : Nat) : Int)

/-- AND's result (40_alu.md R118). -/
def aluAnd (x y : Byte) : Byte := x &&& y

/-- OR's result (40_alu.md R120). -/
def aluOr (x y : Byte) : Byte := x ||| y

/-- XOR's result (40_alu.md R121). -/
def aluXor (x y : Byte) : Byte := x ^^^ y

/-- SHL's result: `x * 2^y` masked, the count being the whole value of `y` (40_alu.md R122, R131, decision D12,
log entry 8). -/
def aluShl (x y : Byte) : Byte := mask8 ((x.toNat : Int) * 2 ^ y.toNat)

/-- SHR's result: `x div 2^y`, the count being the whole value of `y` (40_alu.md R123, R131, decision D12,
log entry 8). -/
def aluShr (x y : Byte) : Byte := mask8 ((x.toNat / 2 ^ y.toNat : Nat) : Int)

/-- INC's result (40_alu.md R115, decision D11, log entry 7). -/
def aluInc (x : Byte) : Byte := mask8 ((x.toNat : Int) + 1)

/-- DEC's result (40_alu.md R116, decision D11, log entry 7). -/
def aluDec (x : Byte) : Byte := mask8 ((x.toNat : Int) - 1)

/-- NOT's result (40_alu.md R119). -/
def aluNot (x : Byte) : Byte := mask8 (255 - (x.toNat : Int))

/-- The frame of the two-register ALU instructions: check opA and opB, write `x[a]`, go 3 bytes on
(40_alu.md R124, R126). -/
def aluBinary (f : Byte → Byte → Byte) (a b : Byte) (s : State) : Host.Outcome State Fault Refusal :=
  withRegs a b s fun ra rb => .ok ((s.setReg ra (f (s.reg ra) (s.reg rb))).advance 3)

/-- The frame of DIV and MOD: as `aluBinary`, with the divisor tested last (40_alu.md R113, R114, R126 item 4). -/
def aluDividing (f : Byte → Byte → Byte) (a b : Byte) (s : State) : Host.Outcome State Fault Refusal :=
  withRegs a b s fun ra rb =>
    if s.reg rb = 0 then .error .divisionByZero
    else .ok ((s.setReg ra (f (s.reg ra) (s.reg rb))).advance 3)

/-- The frame of INC, DEC and NOT: check opA, write `x[a]`, go 2 bytes on (40_alu.md R124, R126). -/
def aluUnary (f : Byte → Byte) (a : Byte) (s : State) : Host.Outcome State Fault Refusal :=
  withReg a s fun ra => .ok ((s.setReg ra (f (s.reg ra))).advance 2)

/-- INC Ra (40_alu.md R115). -/
def execInc (a : Byte) (s : State) : Host.Outcome State Fault Refusal := aluUnary aluInc a s

/-- DEC Ra (40_alu.md R116). -/
def execDec (a : Byte) (s : State) : Host.Outcome State Fault Refusal := aluUnary aluDec a s

/-- NOT Ra (40_alu.md R119). -/
def execNot (a : Byte) (s : State) : Host.Outcome State Fault Refusal := aluUnary aluNot a s

/-- ADD Ra,Rb (40_alu.md R110). -/
def execAdd (a b : Byte) (s : State) : Host.Outcome State Fault Refusal := aluBinary aluAdd a b s

/-- SUB Ra,Rb (40_alu.md R111). -/
def execSub (a b : Byte) (s : State) : Host.Outcome State Fault Refusal := aluBinary aluSub a b s

/-- MUL Ra,Rb (40_alu.md R112). -/
def execMul (a b : Byte) (s : State) : Host.Outcome State Fault Refusal := aluBinary aluMul a b s

/-- DIV Ra,Rb (40_alu.md R113). -/
def execDiv (a b : Byte) (s : State) : Host.Outcome State Fault Refusal := aluDividing aluDiv a b s

/-- MOD Ra,Rb (40_alu.md R114). -/
def execMod (a b : Byte) (s : State) : Host.Outcome State Fault Refusal := aluDividing aluMod a b s

/-- CMP Ra,Rb: overwrite FL with exactly one flag; neither register is written (40_alu.md R117). -/
def execCmp (a b : Byte) (s : State) : Host.Outcome State Fault Refusal :=
  withRegs a b s fun ra rb => .ok ((s.setFl (compareFlags (s.reg ra) (s.reg rb))).advance 3)

/-- AND Ra,Rb (40_alu.md R118). -/
def execAnd (a b : Byte) (s : State) : Host.Outcome State Fault Refusal := aluBinary aluAnd a b s

/-- OR Ra,Rb (40_alu.md R120). -/
def execOr (a b : Byte) (s : State) : Host.Outcome State Fault Refusal := aluBinary aluOr a b s

/-- XOR Ra,Rb (40_alu.md R121). -/
def execXor (a b : Byte) (s : State) : Host.Outcome State Fault Refusal := aluBinary aluXor a b s

/-- SHL Ra,Rb (40_alu.md R122). -/
def execShl (a b : Byte) (s : State) : Host.Outcome State Fault Refusal := aluBinary aluShl a b s

/-- SHR Ra,Rb (40_alu.md R123). -/
def execShr (a b : Byte) (s : State) : Host.Outcome State Fault Refusal := aluBinary aluShr a b s

end Sys2Proof.Machine
end

