-- ==== Sys2Proof/Machine/Control.lean ====
section
/-! DEFINITION. The control-flow instructions JMP, JEQ, JNE, CALL and RET (41_control_flow.md). Each writes
pc itself and nothing is added afterwards (R140; 45_execution_loop.md R196). -/

namespace Sys2Proof.Machine

/-- JMP Ra: `pc <- x[a]` (41_control_flow.md R141). -/
def execJmp (a : Byte) (s : State) : Host.Outcome State Fault Refusal :=
  withReg a s fun ra => .ok (s.jumpTo (s.reg ra))

/-- JEQ Ra: to `x[a]` when E is set, else 2 bytes on; the operand is checked either way
(41_control_flow.md R142, R149). -/
def execJeq (a : Byte) (s : State) : Host.Outcome State Fault Refusal :=
  withReg a s fun ra => .ok (if s.equalFlag then s.jumpTo (s.reg ra) else s.advance 2)

/-- JNE Ra: to `x[a]` when E is clear, else 2 bytes on; the operand is checked either way
(41_control_flow.md R143, R149). -/
def execJne (a : Byte) (s : State) : Host.Outcome State Fault Refusal :=
  withReg a s fun ra => .ok (if s.equalFlag then s.advance 2 else s.jumpTo (s.reg ra))

/-- CALL Ra: the return address `pc + 2` must be an address of memory (decision D17, log entry 11); then, in
this order, the stack pointer goes down, the return address is written at it, and pc takes `x[a]`, read
after the decrement (41_control_flow.md R144; decision D19, log entry 13). -/
def execCall (a : Byte) (s : State) : Host.Outcome State Fault Refusal :=
  withReg a s fun ra =>
    let ret := s.pc.toNat + 2
    if ret > 255 then .error (.addressOutOfRange .mem ret)
    else
      let s₁ := s.decSp
      memWrite (s₁.reg .r7).toNat (BitVec.ofNat 8 ret) s₁ >>= fun s₂ => .ok (s₂.jumpTo (s₂.reg ra))

/-- RET: `pc` takes the byte on top of the stack, then the stack pointer goes up (41_control_flow.md R145). -/
def execRet (s : State) : Host.Outcome State Fault Refusal :=
  conclude s (memRead (s.reg .r7).toNat s >>= fun t => .ok (s.jumpTo t).incSp)

end Sys2Proof.Machine
end

