-- ==== Sys2Proof/Machine/Plain.lean ====
section
/-! DEFINITION. The plain instructions NOP, HLT, LDI and PRN (43_plain.md). -/

namespace Sys2Proof.Machine

/-- NOP (43_plain.md R170). -/
def execNop (s : State) : Host.Outcome State Fault Refusal :=
  conclude s (.ok (s.advance 1))

/-- HLT: `run <- Halted`, pc kept unless HLT_ADVANCES_PC (43_plain.md R171; decision D13, log entry 9). -/
def execHlt (s : State) : Host.Outcome State Fault Refusal :=
  conclude s (.ok (if params.hltAdvancesPc then s.halt.advance 1 else s.halt))

/-- LDI Ra,imm: the immediate is the whole second operand byte and is never checked (43_plain.md R172). -/
def execLdi (a imm : Byte) (s : State) : Host.Outcome State Fault Refusal :=
  withReg a s fun ra => .ok ((s.setReg ra imm).advance 3)

/-- PRN Ra: emit the value of the register (43_plain.md R173). -/
def execPrn (a : Byte) (s : State) : Host.Outcome State Fault Refusal :=
  withReg a s fun ra => .ok ((s.emit (s.reg ra)).advance 2)

end Sys2Proof.Machine
end

