-- ==== Sys2Proof/WellFormed.lean ====
section
/-! DEFINITION. Which instructions are well formed: every register operand names one of R0..R7
(30_encoding.md R86, R92). An ill-formed instruction still decodes and still has a meaning: it raises
AddressOutOfRange(reg, byte). And which configurations are: the opcode map meets what the source fixes about
it (30_encoding.md R89). -/

namespace Sys2Proof

/-- A register operand byte is legal when its value is 0..7 (30_encoding.md R92). -/
def legalReg (b : Byte) : Bool := decide (b.toNat ≤ 7)

/-- Well-formedness of an instruction: each register operand of an implemented instruction is legal
(30_encoding.md R92); LDI's immediate is never checked (R93); the operand bytes of a reserved opcode are
never examined (44_reserved.md R180). -/
def Instr.wf : Instr → Bool
  | .nop => true
  | .hlt => true
  | .ret => true
  | .push a => legalReg a
  | .pop a => legalReg a
  | .prn a => legalReg a
  | .call a => legalReg a
  | .jmp a => legalReg a
  | .jeq a => legalReg a
  | .jne a => legalReg a
  | .inc a => legalReg a
  | .dec a => legalReg a
  | .not a => legalReg a
  | .ldi a _ => legalReg a
  | .add a b => legalReg a && legalReg b
  | .sub a b => legalReg a && legalReg b
  | .mul a b => legalReg a && legalReg b
  | .div a b => legalReg a && legalReg b
  | .mod a b => legalReg a && legalReg b
  | .cmp a b => legalReg a && legalReg b
  | .and a b => legalReg a && legalReg b
  | .or a b => legalReg a && legalReg b
  | .xor a b => legalReg a && legalReg b
  | .shl a b => legalReg a && legalReg b
  | .shr a b => legalReg a && legalReg b
  | .iret => true
  | .pra _ => true
  | .int _ => true
  | .jgt _ => true
  | .jlt _ => true
  | .jle _ => true
  | .jge _ => true
  | .ld _ _ => true
  | .st _ _ => true

/-- How many operand bytes each opcode has (30_encoding.md R86 to R88, R89(b)). -/
def Opcode.arity : Opcode → Nat
  | .nop | .hlt | .ret | .iret => 0
  | .push | .pop | .prn | .pra | .call | .int | .jmp | .jeq | .jne | .jgt | .jlt | .jle | .jge
  | .inc | .dec | .not => 1
  | .ldi | .ld | .st | .add | .sub | .mul | .div | .mod | .cmp | .and | .or | .xor | .shl | .shr => 2

/-- The 14 ALU opcodes (30_encoding.md R89(c)). -/
def Opcode.alu : Opcode → Bool
  | .add | .sub | .mul | .div | .mod | .inc | .dec | .cmp | .and | .not | .or | .xor | .shl | .shr => true
  | .nop | .hlt | .ret | .push | .pop | .prn | .call | .jmp | .jeq | .jne | .ldi
  | .iret | .pra | .int | .jgt | .jlt | .jle | .jge | .ld | .st => false

/-- The opcodes that set pc themselves (30_encoding.md R89(d)). -/
def Opcode.jump : Opcode → Bool
  | .call | .ret | .jmp | .jeq | .jne | .jgt | .jlt | .jle | .jge | .int | .iret => true
  | .nop | .hlt | .push | .pop | .prn | .ldi | .pra | .ld | .st
  | .add | .sub | .mul | .div | .mod | .inc | .dec | .cmp | .and | .not | .or | .xor | .shl | .shr => false

/-- The four bytes the source attests (30_encoding.md R89(a), (f)). -/
def opcodeMapAttested (m : Opcode → Byte) : Bool :=
  m .ldi == 0b10000010 && m .add == 0b10100000 && m .prn == 0b01000111 && m .hlt == 0b00000001

/-- Bits 7:6, 5 and 4 of every byte are as the source fixes them (30_encoding.md R89(b), (c), (d)). -/
def opcodeMapBits (m : Opcode → Byte) : Bool :=
  Opcode.all.all fun o =>
    (m o).toNat / 64 == o.arity && (m o).getLsbD 5 == o.alu && (m o).getLsbD 4 == o.jump

/-- No two opcodes share a byte (30_encoding.md R89(e)). -/
def opcodeMapDistinct (m : Opcode → Byte) : Bool :=
  Opcode.all.all fun o => Opcode.all.all fun p => o == p || m o != m p

/-- Well-formedness of a configuration: its opcode map meets all that the source fixes about it
(30_encoding.md R89). -/
def Config.wf (c : Config) : Bool :=
  opcodeMapAttested c.opcodeMap && opcodeMapBits c.opcodeMap && opcodeMapDistinct c.opcodeMap

end Sys2Proof
end

