-- ==== Sys2Proof/Decode.lean ====
section
/-! DEFINITION. The decoder and the encoder (30_encoding.md). The decoder is total on any
bytes and rejects by name; the encoder is written from the same map and formats. -/

namespace Sys2Proof

/-- The opcode byte of each named opcode: the configuration's OPCODE_MAP (30_encoding.md R87, R88; 00_scope.md R8). -/
def opcodeByte (o : Opcode) : Byte := Machine.params.opcodeMap o

/-- What the decoder reads from the opcode byte alone (30_encoding.md R85). -/
structure OpcodeClass where
  /-- The whole byte: the dispatcher's key (R84). -/
  opcode : Byte
  /-- `byte[7:6] + 1` (R81). -/
  length : Nat
  /-- Bit 5 (R82). -/
  isAlu : Bool
  /-- Bit 4 (R83). -/
  setsPc : Bool
  deriving DecidableEq, Repr

/-- The decoder of one byte: a pure function, defined for all 256 values (30_encoding.md R85). -/
def classify (b : Byte) : OpcodeClass :=
  { opcode := b, length := (b >>> 6).toNat + 1, isAlu := b.getLsbD 5, setsPc := b.getLsbD 4 }

/-- The named opcode a byte stands for; none for the 222 undefined bytes (30_encoding.md R90, R94). -/
def decodeOpcode (b : Byte) : Option Opcode :=
  Opcode.all.find? fun o => opcodeByte o == b

/-- How many operand bytes the decoder takes after the opcode byte: `length - 1` for a named opcode
(30_encoding.md R81, R91); none for an undefined byte, which is rejected first (45_execution_loop.md R193). -/
def operandCount (b : Byte) : Nat :=
  match decodeOpcode b with
  | some _ => (classify b).length - 1
  | none => 0

/-- Why bytes are no instruction. -/
inductive DecodeError where
  /-- There is no opcode byte. -/
  | noBytes
  /-- The opcode byte is one of the 222 undefined ones (30_encoding.md R90). -/
  | undefinedOpcode (b : Byte)
  /-- Operand byte number `k` (1 for opA, 2 for opB) of an implemented opcode is missing. -/
  | missingOperand (k : Nat)
  deriving DecidableEq, Repr

/-- One operand byte, opA (formats R; 30_encoding.md R86). -/
def takeOne (f : Byte → Instr) : List Byte → Except DecodeError (Instr × List Byte)
  | a :: rest => .ok (f a, rest)
  | [] => .error (.missingOperand 1)

/-- Two operand bytes, opA and then opB (formats RR and RI; 30_encoding.md R86). -/
def takeTwo (f : Byte → Byte → Instr) : List Byte → Except DecodeError (Instr × List Byte)
  | a :: b :: rest => .ok (f a b, rest)
  | [_] => .error (.missingOperand 2)
  | [] => .error (.missingOperand 1)

/-- The operand byte of a reserved opcode of format R, only to spell it: a byte that does not exist is
spelled 0, because a reserved opcode is rejected whatever follows it (44_reserved.md R180, R185; log entry 5). -/
def spellOne (f : Byte → Instr) : List Byte → Except DecodeError (Instr × List Byte)
  | a :: rest => .ok (f a, rest)
  | [] => .ok (f 0, [])

/-- The operand bytes of a reserved opcode of format RR, only to spell it (see `spellOne`). -/
def spellTwo (f : Byte → Byte → Instr) : List Byte → Except DecodeError (Instr × List Byte)
  | a :: b :: rest => .ok (f a b, rest)
  | [a] => .ok (f a 0, [])
  | [] => .ok (f 0 0, [])

/-- The instruction of an opcode from the bytes after the opcode byte, with the bytes left over
(30_encoding.md R86 to R88). -/
def buildInstr : Opcode → List Byte → Except DecodeError (Instr × List Byte)
  | .nop, rest => .ok (.nop, rest)
  | .hlt, rest => .ok (.hlt, rest)
  | .ret, rest => .ok (.ret, rest)
  | .push, rest => takeOne Instr.push rest
  | .pop, rest => takeOne Instr.pop rest
  | .prn, rest => takeOne Instr.prn rest
  | .call, rest => takeOne Instr.call rest
  | .jmp, rest => takeOne Instr.jmp rest
  | .jeq, rest => takeOne Instr.jeq rest
  | .jne, rest => takeOne Instr.jne rest
  | .inc, rest => takeOne Instr.inc rest
  | .dec, rest => takeOne Instr.dec rest
  | .not, rest => takeOne Instr.not rest
  | .ldi, rest => takeTwo Instr.ldi rest
  | .add, rest => takeTwo Instr.add rest
  | .sub, rest => takeTwo Instr.sub rest
  | .mul, rest => takeTwo Instr.mul rest
  | .div, rest => takeTwo Instr.div rest
  | .mod, rest => takeTwo Instr.mod rest
  | .cmp, rest => takeTwo Instr.cmp rest
  | .and, rest => takeTwo Instr.and rest
  | .or, rest => takeTwo Instr.or rest
  | .xor, rest => takeTwo Instr.xor rest
  | .shl, rest => takeTwo Instr.shl rest
  | .shr, rest => takeTwo Instr.shr rest
  | .iret, rest => .ok (.iret, rest)
  | .pra, rest => spellOne Instr.pra rest
  | .int, rest => spellOne Instr.int rest
  | .jgt, rest => spellOne Instr.jgt rest
  | .jlt, rest => spellOne Instr.jlt rest
  | .jle, rest => spellOne Instr.jle rest
  | .jge, rest => spellOne Instr.jge rest
  | .ld, rest => spellTwo Instr.ld rest
  | .st, rest => spellTwo Instr.st rest

/-- Decode from the opcode byte and the bytes after it. The opcode is looked up before any operand byte is
considered (30_encoding.md R94; 45_execution_loop.md R193). -/
def decodeFrom (ir : Byte) (rest : List Byte) : Except DecodeError (Instr × List Byte) :=
  match decodeOpcode ir with
  | some o => buildInstr o rest
  | none => .error (.undefinedOpcode ir)

/-- Decode one instruction from the front of a list of bytes, lowest address first: the instruction and the
bytes after it, or the reason there is none. -/
def decode : List Byte → Except DecodeError (Instr × List Byte)
  | [] => .error .noBytes
  | ir :: rest => decodeFrom ir rest

/-- The bytes of an instruction, lowest address first: the opcode byte, then opA, then opB
(20_memory.md R51; 30_encoding.md R86 to R88). -/
def encode (i : Instr) : List Byte :=
  opcodeByte i.opcode :: i.operands

/-- The operand byte that names a register (30_encoding.md R92). -/
def regByte (r : Reg) : Byte := BitVec.ofNat 8 r.index

/-- The three bytes, lowest address first, of an instruction whose bits are `w`, bit 0 the least significant
bit of the first byte; every bit from `nbits` up is 0. Three bytes are the longest instruction
(30_encoding.md R81). -/
def tableBytes (nbits w : Nat) : List Byte :=
  let v := w % 2 ^ nbits
  [BitVec.ofNat 8 v, BitVec.ofNat 8 (v / 2 ^ 8), BitVec.ofNat 8 (v / 2 ^ 16)]

/-- The instruction the decoder reads from an instruction whose bits are `w`, numbered as
spec/opcode_table.json numbers them; none where the decoder refuses. -/
def decodeTableWord (nbits w : Nat) : Option Instr :=
  match decode (tableBytes nbits w) with
  | .ok (i, _) => some i
  | .error _ => none

end Sys2Proof
end

