-- ==== Sys2Proof/Machine/Reserved.lean ====
section
/-! DEFINITION. The nine reserved opcodes (44_reserved.md): each raises InvalidOpcode(pc, byte), whatever its
operand bytes are (R180, decision D8, log entry 25), and has no other effect (R185). -/

namespace Sys2Proof.Machine

/-- What executing a reserved opcode byte raises, as the configuration's RESERVED_EXEC says (00_scope.md R8;
44_reserved.md R180). -/
def reservedExec (b : Byte) : FaultCause :=
  match params.reservedExec with
  | .invalidOpcode => .invalidOpcode b

/-- Executing a reserved opcode (44_reserved.md R180). -/
def execReserved (o : Opcode) (s : State) : Host.Outcome State Fault Refusal :=
  conclude s (.error (reservedExec (opcodeByte o)))

/-- IRET (44_reserved.md R180, R184). -/
def execIret (s : State) : Host.Outcome State Fault Refusal := execReserved .iret s

/-- PRA (44_reserved.md R180, R182). -/
def execPra (_a : Byte) (s : State) : Host.Outcome State Fault Refusal := execReserved .pra s

/-- INT (44_reserved.md R180, R184). -/
def execInt (_a : Byte) (s : State) : Host.Outcome State Fault Refusal := execReserved .int s

/-- JGT (44_reserved.md R180, R183). -/
def execJgt (_a : Byte) (s : State) : Host.Outcome State Fault Refusal := execReserved .jgt s

/-- JLT (44_reserved.md R180, R183). -/
def execJlt (_a : Byte) (s : State) : Host.Outcome State Fault Refusal := execReserved .jlt s

/-- JLE (44_reserved.md R180, R183). -/
def execJle (_a : Byte) (s : State) : Host.Outcome State Fault Refusal := execReserved .jle s

/-- JGE (44_reserved.md R180, R183). -/
def execJge (_a : Byte) (s : State) : Host.Outcome State Fault Refusal := execReserved .jge s

/-- LD (44_reserved.md R180, R181). -/
def execLd (_a _b : Byte) (s : State) : Host.Outcome State Fault Refusal := execReserved .ld s

/-- ST (44_reserved.md R180, R181). -/
def execSt (_a _b : Byte) (s : State) : Host.Outcome State Fault Refusal := execReserved .st s

end Sys2Proof.Machine
end

