-- ==== Sys2Proof/Machine/Stack.lean ====
section
/-! DEFINITION. The stack instructions PUSH and POP (42_stack.md). The stack is full and descending, in the
one memory, and is never checked against a limit (R160; 20_memory.md R58; log entry 12). -/

namespace Sys2Proof.Machine

/-- PUSH Ra: the stack pointer goes down, then `x[a]`, read after the decrement, is written at it
(42_stack.md R161, R164; decision D19, log entry 13). -/
def execPush (a : Byte) (s : State) : Host.Outcome State Fault Refusal :=
  withReg a s fun ra =>
    let s₁ := s.decSp
    memWrite (s₁.reg .r7).toNat (s₁.reg ra) s₁ >>= fun s₂ => .ok (s₂.advance 2)

/-- POP Ra: the byte at the stack pointer goes into `x[a]`, then the stack pointer, read after that write,
goes up (42_stack.md R162, R164; decision D19, log entry 13). -/
def execPop (a : Byte) (s : State) : Host.Outcome State Fault Refusal :=
  withReg a s fun ra =>
    memRead (s.reg .r7).toNat s >>= fun v => .ok ((s.setReg ra v).incSp.advance 2)

end Sys2Proof.Machine
end

