-- ==== Sys2Proof/Machine/Fetch.lean ====
section
/-! DEFINITION. Fetching and decoding the instruction at pc (45_execution_loop.md R191 to R194). -/

namespace Sys2Proof.Machine

/-- The bytes at `addr`, `addr + 1`, …, at most `n` of them, ending at the top of memory (20_memory.md R51, R57). -/
def bytesFrom (s : State) : Nat → Nat → List Byte
  | _, 0 => []
  | addr, n + 1 => if addr > 255 then [] else s.byteAt addr :: bytesFrom s (addr + 1) n

/-- What a rejection by the decoder raises at `pc` (45_execution_loop.md R193, R194). The case `noBytes` does
not occur: the opcode byte has been fetched. -/
def decodeFault (pc : Nat) : DecodeError → FaultCause
  | .noBytes => .addressOutOfRange .mem pc
  | .undefinedOpcode b => .invalidOpcode b
  | .missingOperand k => .addressOutOfRange .mem (pc + k)

/-- The instruction at pc, or the fault its fetch raises, in the order of 45_execution_loop.md R191: the opcode
byte (R192), the dispatch (R193), the operand bytes of an implemented opcode, the lower address first (R194).
The operand bytes of a reserved opcode are taken where they exist, only to spell it (log entry 5). -/
def fetchInstr (s : State) : Check Instr :=
  match memRead s.pc.toNat s with
  | .error c => .error c
  | .ok ir =>
    match decodeFrom ir (bytesFrom s (s.pc.toNat + 1) (operandCount ir)) with
    | .ok (i, _) => .ok i
    | .error e => .error (decodeFault s.pc.toNat e)

end Sys2Proof.Machine
end

