-- ==== Sys2Proof/Machine/Load.lean ====
section
/-! DEFINITION. Placing bytes in memory, for the host's program load (50_interfaces.md R212) and for
`State.withFetchWord`. -/

namespace Sys2Proof.Machine

/-- Write a list of bytes at rising addresses from `addr`; no cell exists above 255 (20_memory.md R57). -/
def loadBytes : Memory → Nat → List Byte → Memory
  | m, _, [] => m
  | m, addr, b :: bs => loadBytes (if addr > 255 then m else m.store addr b) (addr + 1) bs

/-- The state with a list of bytes placed from `addr` up, nothing else changed. -/
def State.withBytes (s : State) (addr : Nat) (bs : List Byte) : State :=
  { s with mem := loadBytes s.mem addr bs }

/-- The program load of the host after reset: `Mem[i] <- p[i]`, every other cell 0, at most MAX_LOAD bytes; a
longer program is refused (50_interfaces.md R212, decision D27, log entry 17). The result is the launch state
of a run. -/
def launch (p : List Byte) : Host.Outcome State Fault Refusal :=
  if p.length > params.maxLoad then .refused (.programTooLong p.length)
  else .next (State.reset.withBytes 0 p)

end Sys2Proof.Machine
end

