-- ==== Sys2Proof/Machine/Step.lean ====
section
/-! DEFINITION. The step function (45_execution_loop.md R191) and the placing of a word where it fetches. -/

namespace Sys2Proof.Machine

/-- One step: a terminal state stays as it is (45_execution_loop.md R198); a running core fetches, decodes and
executes one instruction, or takes the fault that its fetch raises (R191). -/
def step (s : State) : Host.Outcome State Fault Refusal :=
  match s.run with
  | .running =>
    match fetchInstr s with
    | .ok i => exec i s
    | .error c => .next (raise c s)
  | .halted => .next s
  | .faulted => .next s

/-- The state with the instruction whose bits are `w` (numbered as spec/opcode_table.json numbers them, the
bits from `nbits` up being 0) stored at pc; nothing else changes. It stands for the host's program load
(50_interfaces.md R212, log entry 16). -/
def State.withFetchWord (s : State) (nbits w : Nat) : State :=
  s.withBytes s.pc.toNat (tableBytes nbits w)

end Sys2Proof.Machine
end

