-- ==== Sys2Proof/Machine/Status.lean ====
section
/-! DEFINITION. What the host sees of the core: the status outputs and the output log (50_interfaces.md R215 to
R219). -/

namespace Sys2Proof.Machine

/-- The code of a fault kind on the `fault_kind` port (60_exceptions.md R234, decision D16, log entry 10). -/
def faultCode : FaultCause → BitVec 2
  | .invalidOpcode _ => 1
  | .divisionByZero => 2
  | .addressOutOfRange _ _ => 3

/-- The information value on the `fault_info` port (50_interfaces.md R219; 60_exceptions.md R236). -/
def faultInfo : FaultCause → BitVec 9
  | .invalidOpcode b => b.setWidth 9
  | .divisionByZero => 0
  | .addressOutOfRange _ i => BitVec.ofNat 9 i

/-- The status outputs of 50_interfaces.md R219. `fault_pc` and `fault_info` are valid only when Faulted, so
they are absent otherwise (log entry 19). -/
structure Status where
  runState : RunState
  /-- 0 means no fault (60_exceptions.md R234). -/
  faultKind : BitVec 2
  faultPc : Option PcWord
  faultInfo : Option (BitVec 9)
  deriving DecidableEq, Repr

/-- The status the host reads after the loop has ended (50_interfaces.md R217, R219). -/
def statusOf (s : State) : Status :=
  match s.run, s.fault with
  | .faulted, some f =>
    { runState := .faulted, faultKind := faultCode f.cause, faultPc := some f.fpc
      faultInfo := some (Sys2Proof.Machine.faultInfo f.cause) }
  | r, _ => { runState := r, faultKind := 0, faultPc := none, faultInfo := none }

/-- The output event of a step from `s` to `t`: `out_valid` with `out_data`, or none (50_interfaces.md R219). -/
def outEvent (s t : State) : Option Byte := (t.out.drop s.out.length).head?

/-- The decimal digit `n` as a character, for `n` below 10. -/
def digitChar (n : Nat) : Char := Char.ofNat (48 + n)

/-- The line the host writes for one emitted byte: its shortest decimal numeral, without the line end
(50_interfaces.md R216, decision D23, log entry 20). -/
def renderByte (v : Byte) : List Char :=
  let n := v.toNat
  if n < 10 then [digitChar n]
  else if n < 100 then [digitChar (n / 10), digitChar (n % 10)]
  else [digitChar (n / 100), digitChar (n / 10 % 10), digitChar (n % 10)]

/-- The lines of a run's output, in execution order (50_interfaces.md R216). -/
def renderOutput (out : List Byte) : List (List Char) := out.map renderByte

end Sys2Proof.Machine
end

