-- ==== Sys2Proof/Safety.lean ====
section
/-! DEFINITION. The terms in which claims about the core are stated: what raising a fault means, what a step
leaves unchanged, which fault a step meets first, and the invariant of the machine. -/

namespace Sys2Proof.Machine

/-- The outcome is `raise K(info)` in `s`: a next state that differs from `s` only in `run` and `fault`
(00_scope.md R12). -/
def FaultsWith (c : FaultCause) (s : State) (r : Host.Outcome State Fault Refusal) : Prop :=
  r = .next { s with run := .faulted, fault := some { cause := c, fpc := s.pc } }

/-- The outcome enters Faulted from `s` with the fault record (K, info) at the pc of `s`. Unlike `FaultsWith` it
does not say that the rest is unchanged, which is decision D14 (log entry 10). -/
def Raises (c : FaultCause) (s : State) (r : Host.Outcome State Fault Refusal) : Prop :=
  ∃ t, r = .next t ∧ t.run = .faulted ∧ t.fault = some { cause := c, fpc := s.pc }

/-- Every register outside `ws` holds what it held. -/
def RegsKept (ws : List Reg) (s t : State) : Prop := ∀ r : Reg, r ∉ ws → t.reg r = s.reg r

/-- Every byte of memory reads as before. -/
def MemKept (s t : State) : Prop := ∀ a : Nat, t.byteAt a = s.byteAt a

/-- Every byte of memory but the one at `addr` reads as before. -/
def MemKeptExcept (addr : Nat) (s t : State) : Prop := ∀ a : Nat, a ≠ addr → t.byteAt a = s.byteAt a

/-- The flags register, the run state, the fault record and the output log are unchanged. -/
def ControlKept (s t : State) : Prop := t.fl = s.fl ∧ t.run = s.run ∧ t.fault = s.fault ∧ t.out = s.out

/-- The instruction completes: its next state holds the natural number `v` in `rd`, pc is `len` bytes on, and
nothing else has changed. -/
def WritesRegister (i : Instr) (s : State) (rd : Reg) (v : Nat) (len : Nat) : Prop :=
  ∃ t, exec i s = .next t ∧ (t.reg rd).toNat = v ∧ t.pc = s.pc + BitVec.ofNat 9 len
    ∧ RegsKept [rd] s t ∧ MemKept s t ∧ ControlKept s t

/-- The byte is one of the 25 implemented opcodes (30_encoding.md R87). -/
def ImplementedByte (b : Byte) : Prop := ∃ o : Opcode, o.implemented = true ∧ opcodeByte o = b

/-- The register an operand byte names, read; 0 stands for a byte that names none. -/
def namedReg (s : State) (b : Byte) : Byte :=
  match regOfIndex b.toNat with
  | some r => s.reg r
  | none => 0

/-- Which fault a step begun in a running state meets first, in the order of 60_exceptions.md R238 (decision
D15), or none. A step is SAFE when there is none. -/
def firstFault (s : State) : Option FaultCause :=
  let pc := s.pc.toNat
  let op := s.byteAt pc
  let n := op.toNat / 64 + 1
  let a := s.byteAt (pc + 1)
  let b := s.byteAt (pc + 2)
  if pc > 255 then some (.addressOutOfRange .mem pc)
  else if Opcode.all.all (fun o => !(o.implemented && opcodeByte o == op)) then some (.invalidOpcode op)
  else if n ≥ 2 ∧ pc + 1 > 255 then some (.addressOutOfRange .mem (pc + 1))
  else if n = 3 ∧ pc + 2 > 255 then some (.addressOutOfRange .mem (pc + 2))
  else if n ≥ 2 ∧ a.toNat > 7 then some (.addressOutOfRange .reg a.toNat)
  else if n = 3 ∧ op ≠ opcodeByte .ldi ∧ b.toNat > 7 then some (.addressOutOfRange .reg b.toNat)
  else if op = opcodeByte .call ∧ pc + 2 > 255 then some (.addressOutOfRange .mem (pc + 2))
  else if (op = opcodeByte .div ∨ op = opcodeByte .mod) ∧ namedReg s b = 0 then some .divisionByZero
  else none

/-- The information value of a fault record is in the range 60_exceptions.md R236 gives for its kind. -/
def CauseLegal : FaultCause → Prop
  | .invalidOpcode b => ¬ ImplementedByte b
  | .divisionByZero => True
  | .addressOutOfRange .mem i => 256 ≤ i ∧ i ≤ 258
  | .addressOutOfRange .reg i => 8 ≤ i ∧ i ≤ 255

/-- The invariant of the machine: it holds after reset and every step keeps it. -/
structure Inv (s : State) : Prop where
  /-- The memory is in its canonical form. -/
  mem_wf : s.mem.wf = true
  /-- FL holds one of its four values (10_state.md R36, decision D21). -/
  fl_legal : s.fl = 0x00 ∨ s.fl = 0x01 ∨ s.fl = 0x02 ∨ s.fl = 0x04
  /-- pc is at most 256 (10_state.md R28; the tighter bound of 95_test_vectors.md's note on reachable values). -/
  pc_le : s.pc.toNat ≤ 256
  /-- A fault record is there exactly in Faulted (10_state.md R40). -/
  fault_iff : s.fault.isSome = true ↔ s.run = .faulted
  /-- The record holds the pc that is kept, and a legal information value (60_exceptions.md R236, R237). -/
  fault_legal : ∀ f, s.fault = some f → f.fpc = s.pc ∧ CauseLegal f.cause
  /-- In Halted, pc still points at a HLT byte (43_plain.md R171, decision D13). -/
  halted_at_hlt : s.run = .halted → s.pc.toNat ≤ 255 ∧ s.byteAt s.pc.toNat = opcodeByte .hlt

/-- The two states agree in all that a step may depend on: registers, pc, FL, memory and run state
(45_execution_loop.md R202). -/
def Agree (s t : State) : Prop :=
  s.regs = t.regs ∧ s.pc = t.pc ∧ s.fl = t.fl ∧ s.mem = t.mem ∧ s.run = t.run

end Sys2Proof.Machine
end

