-- ==== Sys2Proof/Certificates/Slice0/Obligations.lean ====
section
/-! DEFINITION. The statements for the provers. In a docstring, D<n> is a decision of spec/92_eei_decisions.md
(the spec's own choice, not its source's) and "log entry" is a row of notes/assumptions. A register operand
byte is written `regByte r`, and every byte 0..7 is one; the bytes 8..255 are `BadRegisterOperandFaults`. -/

open Sys2Proof Sys2Proof.Machine

/-! ## Reset and load -/

/-- 10_state.md R25, R32: after reset R7 is 0xF4, from which the stack grows downward, and pc is 0, so that the
first opcode byte fetched is the one at address 0. -/
def Obligations.ResetStackPointerAndPc : Prop :=
  State.reset.reg .r7 = 0xF4 ∧ State.reset.pc.toNat = 0 ∧
  (∀ ra : Reg, ∃ t, exec (.push (regByte ra)) State.reset = .next t ∧ (t.reg .r7).toNat = 0xF3) ∧
  ∀ (n w : Nat), (State.reset.withFetchWord n w).pc.toNat = 0 ∧
    ∀ i, decodeTableWord n w = some i →
      step (State.reset.withFetchWord n w) = exec i (State.reset.withFetchWord n w)

/-- The whole reset state of 10_state.md section 8. R0..R6 = 0 is D2 and FL = 0 is D3 (log entry 2). -/
def Obligations.ResetWholeState : Prop :=
  (∀ r : Reg, r ≠ .r7 → State.reset.reg r = 0) ∧ State.reset.reg .r7 = 0xF4 ∧ State.reset.pc = 0
    ∧ State.reset.fl = 0 ∧ (∀ a : Nat, State.reset.byteAt a = 0) ∧ State.reset.run = .running
    ∧ State.reset.fault = none ∧ State.reset.out = []

/-- 50_interfaces.md section 3: the load of at most 256 bytes puts byte k of the program at address k, leaves
every other cell 0 and touches nothing else; a longer program is refused (D27, log entry 17). -/
def Obligations.LaunchLoadsProgram : Prop :=
  ∀ p : List Byte,
    (p.length ≤ 256 → ∃ t, launch p = .next t ∧ (∀ k : Nat, t.byteAt k = p.getD k 0)
      ∧ t.regs = State.reset.regs ∧ t.pc = State.reset.pc ∧ t.fl = State.reset.fl
      ∧ t.run = State.reset.run ∧ t.fault = State.reset.fault ∧ t.out = State.reset.out)
    ∧ (256 < p.length → launch p = .refused (.programTooLong p.length))

/-! ## Encoding -/

/-- Decode and encode agree: every instruction, with every operand byte at every value, is read back from its
encoding, whatever bytes follow (30_encoding.md sections 1 to 3). -/
def Obligations.DecodeEncodeRoundTrip : Prop :=
  ∀ (i : Instr) (rest : List Byte), decode (encode i ++ rest) = .ok (i, rest)

/-- The other direction: the instruction read from three or more bytes encodes to exactly the bytes taken, so
that every bit of every byte of an instruction is significant (30_encoding.md section 4). -/
def Obligations.EncodeDecodeRoundTrip : Prop :=
  ∀ (bs : List Byte) (i : Instr) (rest : List Byte), 3 ≤ bs.length → decode bs = .ok (i, rest) →
    bs = encode i ++ rest

/-- The words the source itself shows (30_encoding.md section 1, the worked example), and one word of each
family whose opcode byte rests on D1 (log entry 1). -/
def Obligations.WrittenOutWordsDecode : Prop :=
  decode [0b10000010, 0b00000000, 0b00001000] = .ok (.ldi 0 8, [])
    ∧ decode [0b10100000, 0b00000000, 0b00000001] = .ok (.add 0 1, [])
    ∧ decode [0b01000111, 0b00000000] = .ok (.prn 0, [])
    ∧ decode [0b00000001] = .ok (.hlt, [])
    ∧ decode [0b01010000, 0b00000001] = .ok (.call 1, [])
    ∧ decode [0b01000101, 0b00000111] = .ok (.push 7, [])
    ∧ decode [0b10000100, 0b00000010, 0b00000011] = .ok (.st 2 3, [])
    ∧ decode [0b11111111] = .error (.undefinedOpcode 0xFF)

/-- 30_encoding.md R81, R82, R85: what the decoder reads from one byte; the length is 1 to 3 for every named
opcode, which has that many bytes with its operands, and the bytes 0xC0..0xFF are undefined; bit 5 is set for
exactly the 14 ALU opcodes. -/
def Obligations.DecoderReadsOneByte : Prop :=
  (∀ b : Byte, classify b =
    { opcode := b, length := b.toNat / 64 + 1, isAlu := decide (b.toNat / 32 % 2 = 1)
      setsPc := decide (b.toNat / 16 % 2 = 1) })
    ∧ (∀ i : Instr, (classify (opcodeByte i.opcode)).length = 1 + i.operands.length
        ∧ (classify (opcodeByte i.opcode)).length ≤ 3)
    ∧ (∀ b : Byte, 0xC0 ≤ b.toNat → decodeOpcode b = none)
    ∧ ∀ o : Opcode, (classify (opcodeByte o)).isAlu = true ↔
        o ∈ ([.add, .sub, .mul, .div, .mod, .inc, .dec, .cmp, .and, .not, .or, .xor, .shl, .shr] : List Opcode)

/-- The opcode map and its complement (30_encoding.md section 2): the 34 bytes are the named opcodes and the
222 others are undefined. 30 of the bytes rest on D1 (log entry 1). -/
def Obligations.OpcodeMapIsExact : Prop :=
  (∀ (b : Byte) (o : Opcode), decodeOpcode b = some o ↔ (o, b) ∈
    ([(.nop, 0x00), (.hlt, 0x01), (.ret, 0x11), (.push, 0x45), (.pop, 0x46), (.prn, 0x47), (.call, 0x50),
      (.jmp, 0x54), (.jeq, 0x55), (.jne, 0x56), (.inc, 0x65), (.dec, 0x66), (.not, 0x69), (.ldi, 0x82),
      (.add, 0xA0), (.sub, 0xA1), (.mul, 0xA2), (.div, 0xA3), (.mod, 0xA4), (.cmp, 0xA7), (.and, 0xA8),
      (.or, 0xAA), (.xor, 0xAB), (.shl, 0xAC), (.shr, 0xAD), (.iret, 0x13), (.pra, 0x48), (.int, 0x52),
      (.jgt, 0x57), (.jlt, 0x58), (.jle, 0x59), (.jge, 0x5A), (.ld, 0x83), (.st, 0x84)] : List (Opcode × Byte)))
    ∧ ((List.range 256).filter fun n => (decodeOpcode (BitVec.ofNat 8 n)).isNone).length = 222

/-- The opcode map of the configuration meets all that the source fixes about it: the four attested bytes, the
length, ALU and jump bits of all 34 opcodes, and distinctness (30_encoding.md section 2, R89). The map itself
rests on D1 (log entry 1). -/
def Obligations.OpcodeMapMeetsTheSource : Prop := params.wf = true

/-! ## The step -/

/-- A step runs the decoded instruction: when the core is running and the bytes from pc up, all inside memory,
decode to `i`, the step is `exec i` (45_execution_loop.md section 2). -/
def Obligations.StepRunsDecodedInstruction : Prop :=
  ∀ (s : State) (n : Nat) (i : Instr) (rest : List Byte), s.run = .running → s.pc.toNat + n ≤ 256 →
    decode ((List.range n).map fun k => s.byteAt (s.pc.toNat + k)) = .ok (i, rest) →
    step s = exec i s

/-- 45_execution_loop.md R192: the opcode byte is read through MemRead, which has no effect; a pc above 255 raises
AddressOutOfRange(mem, pc), recorded with that pc. -/
def Obligations.OpcodeFetch : Prop :=
  ∀ s : State, s.run = .running →
    (255 < s.pc.toNat →
      memRead s.pc.toNat s = .error (.addressOutOfRange .mem s.pc.toNat)
        ∧ Raises (.addressOutOfRange .mem s.pc.toNat) s (step s))
    ∧ (s.pc.toNat ≤ 255 → memRead s.pc.toNat s = .ok (s.byteAt s.pc.toNat))

/-- 45_execution_loop.md R194: the operand fetch of an implemented opcode of length n. At 255 (n at least 2) and
at 254 (n = 3) the address 256 is reported; otherwise the n - 1 bytes after the opcode byte, and no byte beyond
them, are the operands of the instruction that runs. -/
def Obligations.OperandFetch : Prop :=
  ∀ (s : State) (o : Opcode), s.run = .running → o.implemented = true → s.pc.toNat ≤ 255 →
    s.byteAt s.pc.toNat = opcodeByte o →
    (2 ≤ (classify (opcodeByte o)).length → s.pc.toNat = 255 →
      Raises (.addressOutOfRange .mem 256) s (step s))
    ∧ ((classify (opcodeByte o)).length = 3 → s.pc.toNat = 254 →
      Raises (.addressOutOfRange .mem 256) s (step s))
    ∧ (s.pc.toNat + (classify (opcodeByte o)).length ≤ 256 →
      ∃ i : Instr, i.opcode = o
        ∧ i.operands = (List.range ((classify (opcodeByte o)).length - 1)).map
            (fun k => s.byteAt (s.pc.toNat + 1 + k))
        ∧ step s = exec i s)

/-- Every byte that is not one of the 25 implemented opcodes, reserved or undefined, raises InvalidOpcode with
the byte, at every address and whatever follows it (30_encoding.md section 2; D7, D8, D5; log entries 5, 25). -/
def Obligations.UnimplementedOpcodeFaults : Prop :=
  ∀ s : State, s.run = .running → s.pc.toNat ≤ 255 → ¬ ImplementedByte (s.byteAt s.pc.toNat) →
    FaultsWith (.invalidOpcode (s.byteAt s.pc.toNat)) s (step s)

/-- Halted and Faulted are terminal: any number of steps leaves such a state as it is
(45_execution_loop.md section 2, D24, log entry 18). -/
def Obligations.TerminalStatesAbsorb : Prop :=
  ∀ (s : State) (k : Nat), s.run ≠ .running → Host.Core.run Sys2Proof.core k s = .next s

/-- 10_state.md R39: the run state is Running after reset; a step goes from Running to Halted exactly by a HLT,
to Faulted only by a raise, and never leaves Halted or Faulted. -/
def Obligations.RunStateTransitions : Prop :=
  State.reset.run = .running ∧
  ∀ s t : State, step s = .next t →
    (s.run = .running →
      (t.run = .halted ↔ s.pc.toNat ≤ 255 ∧ s.byteAt s.pc.toNat = opcodeByte .hlt)
      ∧ (t.run = .faulted → ∃ c, Raises c s (step s)))
    ∧ (s.run ≠ .running → t.run = s.run)

/-- 10_state.md R40: no fault record after reset; a step changes the record only when it enters Faulted from
Running, and then it holds a kind with its information value and the pc of the step. -/
def Obligations.FaultRecordWrittenOnce : Prop :=
  State.reset.fault = none ∧
  ∀ s t : State, step s = .next t → t.fault ≠ s.fault →
    s.run = .running ∧ t.run = .faulted ∧ ∃ c, t.fault = some { cause := c, fpc := s.pc }

/-- Faults are precise (60_exceptions.md section 4, D14, log entry 10): a step that faults changes only the run
state and the fault record. -/
def Obligations.FaultsArePrecise : Prop :=
  ∀ s t : State, step s = .next t → s.run = .running → t.run = .faulted →
    t.regs = s.regs ∧ t.pc = s.pc ∧ t.fl = s.fl ∧ t.mem = s.mem ∧ t.out = s.out
      ∧ ∃ c, t.fault = some { cause := c, fpc := s.pc }

/-- Which fault a step raises, in the order of 60_exceptions.md section 3 (D15, log entry 10): the first one of
`firstFault`; a step for which there is none completes without a fault. -/
def Obligations.FirstFaultIsRaised : Prop :=
  ∀ s : State, s.run = .running →
    (∀ c, firstFault s = some c → FaultsWith c s (step s))
    ∧ (firstFault s = none → ∃ t, step s = .next t ∧ t.run ≠ .faulted ∧ t.fault = s.fault)

/-! ## ALU instructions -/

/-- 40_alu.md sections 2 and 3: the masked results of ADD, MUL, AND, OR, XOR, SHL, SHR, SUB, INC, DEC and NOT,
computed on the register values as integers; overflow is silent, so each completes, with FL and all else unchanged; and the
results of DIV, MOD and SHR cannot leave the range. The operations of SUB, INC and DEC are the spec's decisions
D9 and D11 (log entry 7), the shift counts are D12 (log entry 8) and FL is D29 (log entry 14). -/
def Obligations.AluResultsAreMasked : Prop :=
  ∀ (s : State) (ra rb : Reg),
    WritesRegister (.add (regByte ra) (regByte rb)) s ra (((s.reg ra).toNat + (s.reg rb).toNat) % 256) 3
    ∧ WritesRegister (.mul (regByte ra) (regByte rb)) s ra (((s.reg ra).toNat * (s.reg rb).toNat) % 256) 3
    ∧ WritesRegister (.and (regByte ra) (regByte rb)) s ra (((s.reg ra).toNat &&& (s.reg rb).toNat) % 256) 3
    ∧ WritesRegister (.or (regByte ra) (regByte rb)) s ra (((s.reg ra).toNat ||| (s.reg rb).toNat) % 256) 3
    ∧ WritesRegister (.xor (regByte ra) (regByte rb)) s ra (((s.reg ra).toNat ^^^ (s.reg rb).toNat) % 256) 3
    ∧ WritesRegister (.shl (regByte ra) (regByte rb)) s ra (((s.reg ra).toNat * 2 ^ (s.reg rb).toNat) % 256) 3
    ∧ WritesRegister (.shr (regByte ra) (regByte rb)) s ra (((s.reg ra).toNat / 2 ^ (s.reg rb).toNat) % 256) 3
    ∧ WritesRegister (.sub (regByte ra) (regByte rb)) s ra
        ((((s.reg ra).toNat : Int) - (s.reg rb).toNat) % 256).toNat 3
    ∧ WritesRegister (.inc (regByte ra)) s ra (((s.reg ra).toNat + 1) % 256) 2
    ∧ WritesRegister (.dec (regByte ra)) s ra ((((s.reg ra).toNat : Int) - 1) % 256).toNat 2
    ∧ WritesRegister (.not (regByte ra)) s ra (255 - (s.reg ra).toNat) 2
    ∧ (s.reg ra).toNat / (s.reg rb).toNat ≤ 255 ∧ (s.reg ra).toNat % (s.reg rb).toNat ≤ 255
    ∧ (s.reg ra).toNat / 2 ^ (s.reg rb).toNat ≤ 255

/-- Shift counts are not reduced modulo 8 (40_alu.md section 3, D12, log entry 8): a count of 8 or more gives 0 in
both directions, and a count of 0 leaves the value. -/
def Obligations.LargeShiftCountsGiveZero : Prop :=
  ∀ (s : State) (ra rb : Reg),
    (8 ≤ (s.reg rb).toNat →
      WritesRegister (.shl (regByte ra) (regByte rb)) s ra 0 3 ∧ WritesRegister (.shr (regByte ra) (regByte rb)) s ra 0 3)
    ∧ (s.reg rb = 0 →
      WritesRegister (.shl (regByte ra) (regByte rb)) s ra (s.reg ra).toNat 3
        ∧ WritesRegister (.shr (regByte ra) (regByte rb)) s ra (s.reg ra).toNat 3)

/-- DIV and MOD (40_alu.md section 3, "Division"): for a divisor d other than 0 both complete, with quotient q and
remainder r such that n = q * d + r and r < d; for divisor 0 both raise DivisionByZero. DIV is D10 (log entry 7). -/
def Obligations.DivModSplitTheDividend : Prop :=
  ∀ (s : State) (ra rb : Reg),
    ((s.reg rb).toNat ≠ 0 → ∃ q r : Nat,
      (s.reg ra).toNat = q * (s.reg rb).toNat + r ∧ r < (s.reg rb).toNat
      ∧ WritesRegister (.div (regByte ra) (regByte rb)) s ra q 3
      ∧ WritesRegister (.mod (regByte ra) (regByte rb)) s ra r 3)
    ∧ ((s.reg rb).toNat = 0 →
      FaultsWith .divisionByZero s (exec (.div (regByte ra) (regByte rb)) s)
      ∧ FaultsWith .divisionByZero s (exec (.mod (regByte ra) (regByte rb)) s))

/-- CMP (40_alu.md section 2): FL becomes exactly one of 0x01, 0x02, 0x04 by the unsigned comparison (D30, log
entry 14), the three flags say which, and nothing else but pc changes. -/
def Obligations.CmpSetsExactlyOneFlag : Prop :=
  ∀ (s : State) (ra rb : Reg), ∃ t, exec (.cmp (regByte ra) (regByte rb)) s = .next t
    ∧ t.fl = (if (s.reg ra).toNat = (s.reg rb).toNat then 0x01
        else if (s.reg rb).toNat < (s.reg ra).toNat then 0x02 else 0x04)
    ∧ t.equalFlag = decide ((s.reg ra).toNat = (s.reg rb).toNat)
    ∧ t.greaterFlag = decide ((s.reg rb).toNat < (s.reg ra).toNat)
    ∧ t.lessFlag = decide ((s.reg ra).toNat < (s.reg rb).toNat)
    ∧ t.pc = s.pc + 3 ∧ RegsKept [] s t ∧ MemKept s t ∧ t.run = s.run ∧ t.fault = s.fault ∧ t.out = s.out

/-- Only CMP writes FL: every other instruction, whatever its operands and whether it completes or faults, leaves
FL as it was (40_alu.md section 1, D29, log entry 14). -/
def Obligations.OnlyCmpWritesFlags : Prop :=
  ∀ (i : Instr) (s t : State), exec i s = .next t → i.opcode ≠ .cmp → t.fl = s.fl

/-! ## Operands -/

/-- A register operand byte 8..255 raises AddressOutOfRange(reg, byte), opA before opB, for every implemented
instruction, whether or not it goes on to use the register (30_encoding.md section 3, D6, log entry 6). -/
def Obligations.BadRegisterOperandFaults : Prop :=
  ∀ (s : State) (a b : Byte),
    (7 < a.toNat →
      ∀ i ∈ ([.push a, .pop a, .prn a, .call a, .jmp a, .jeq a, .jne a, .inc a, .dec a, .not a, .ldi a b] :
        List Instr), FaultsWith (.addressOutOfRange .reg a.toNat) s (exec i s))
    ∧ (7 < a.toNat ∨ 7 < b.toNat →
      ∀ i ∈ ([.add a b, .sub a b, .mul a b, .div a b, .mod a b, .cmp a b, .and a b, .or a b, .xor a b,
        .shl a b, .shr a b] : List Instr),
        FaultsWith (.addressOutOfRange .reg (if 7 < a.toNat then a.toNat else b.toNat)) s (exec i s))

/-! ## Control flow -/

/-- JMP (41_control_flow.md section 2): pc takes the register's value and nothing else changes. -/
def Obligations.JmpGoesToRegister : Prop :=
  ∀ (s : State) (ra : Reg), ∃ t, exec (.jmp (regByte ra)) s = .next t
    ∧ t.pc.toNat = (s.reg ra).toNat ∧ RegsKept [] s t ∧ MemKept s t ∧ ControlKept s t

/-- JEQ and JNE (41_control_flow.md section 2): JEQ branches exactly when bit 0 of FL is set, JNE exactly when it
is clear; not taken, each goes 2 bytes on; nothing else changes. -/
def Obligations.ConditionalJumps : Prop :=
  ∀ (s : State) (ra : Reg),
    (∃ t, exec (.jeq (regByte ra)) s = .next t
      ∧ (s.fl.toNat % 2 = 1 → t.pc.toNat = (s.reg ra).toNat) ∧ (s.fl.toNat % 2 = 0 → t.pc = s.pc + 2)
      ∧ RegsKept [] s t ∧ MemKept s t ∧ ControlKept s t)
    ∧ (∃ t, exec (.jne (regByte ra)) s = .next t
      ∧ (s.fl.toNat % 2 = 0 → t.pc.toNat = (s.reg ra).toNat) ∧ (s.fl.toNat % 2 = 1 → t.pc = s.pc + 2)
      ∧ RegsKept [] s t ∧ MemKept s t ∧ ControlKept s t)

/-- CALL (41_control_flow.md section 2) with a return address inside memory: the stack pointer goes down by one
modulo 256, the return address pc + 2 is stored at it, and pc takes the register's value, which for R7 is the
decremented stack pointer (D19, log entry 13); nothing else changes. -/
def Obligations.CallPushesReturnAddress : Prop :=
  ∀ (s : State) (ra : Reg), s.pc.toNat ≤ 253 →
    ∃ t, exec (.call (regByte ra)) s = .next t
      ∧ (s.decSp.reg .r7).toNat = ((s.reg .r7).toNat + 255) % 256
      ∧ t.reg .r7 = s.decSp.reg .r7
      ∧ (t.byteAt (s.decSp.reg .r7).toNat).toNat = s.pc.toNat + 2
      ∧ t.pc.toNat = (s.decSp.reg ra).toNat ∧ (ra ≠ .r7 → t.pc.toNat = (s.reg ra).toNat)
      ∧ RegsKept [.r7] s t ∧ MemKeptExcept (s.decSp.reg .r7).toNat s t ∧ ControlKept s t

/-- CALL whose return address is above 255 raises AddressOutOfRange(mem, pc + 2) and writes nothing
(41_control_flow.md section 2, D17, log entry 11). -/
def Obligations.CallReturnAddressOutOfRange : Prop :=
  ∀ (s : State) (ra : Reg), 254 ≤ s.pc.toNat →
    FaultsWith (.addressOutOfRange .mem (s.pc.toNat + 2)) s (exec (.call (regByte ra)) s)

/-- RET (41_control_flow.md section 2): pc takes the byte on top of the stack, the stack pointer goes up by one
modulo 256, memory and all else are unchanged; it never faults. -/
def Obligations.RetPopsReturnAddress : Prop :=
  ∀ s : State, ∃ t, exec .ret s = .next t
    ∧ t.pc.toNat = (s.byteAt (s.reg .r7).toNat).toNat
    ∧ (t.reg .r7).toNat = ((s.reg .r7).toNat + 1) % 256
    ∧ RegsKept [.r7] s t ∧ MemKept s t ∧ ControlKept s t

/-- 41_control_flow.md R147: a RET executed in any state `u` that has the stack pointer and the cell it points at
as the CALL left them brings pc to the instruction after the CALL and the stack pointer back; the CALL itself
saves nothing but the return address: no register other than R7, no FL, no other cell changes. -/
def Obligations.CallThenRetReturns : Prop :=
  ∀ (s : State) (ra : Reg), s.pc.toNat ≤ 253 →
    ∃ t, exec (.call (regByte ra)) s = .next t
      ∧ RegsKept [.r7] s t ∧ t.fl = s.fl ∧ MemKeptExcept (s.decSp.reg .r7).toNat s t
      ∧ ∀ u : State, u.reg .r7 = t.reg .r7 → u.byteAt (t.reg .r7).toNat = t.byteAt (t.reg .r7).toNat →
        ∃ v, exec .ret u = .next v ∧ v.pc.toNat = s.pc.toNat + 2 ∧ v.reg .r7 = s.reg .r7

/-! ## Stack -/

/-- PUSH (42_stack.md section 2): the stack pointer goes down by one modulo 256 (D18, log entry 12) and the
register's value, read after that (which matters for R7 only, D19, log entry 13), is stored at it; nothing else
but pc changes. -/
def Obligations.PushStoresRegister : Prop :=
  ∀ (s : State) (ra : Reg), ∃ t, exec (.push (regByte ra)) s = .next t
    ∧ (s.decSp.reg .r7).toNat = ((s.reg .r7).toNat + 255) % 256
    ∧ t.reg .r7 = s.decSp.reg .r7
    ∧ t.byteAt (s.decSp.reg .r7).toNat = s.decSp.reg ra
    ∧ (ra ≠ .r7 → t.byteAt (s.decSp.reg .r7).toNat = s.reg ra)
    ∧ t.pc = s.pc + 2
    ∧ RegsKept [.r7] s t ∧ MemKeptExcept (s.decSp.reg .r7).toNat s t ∧ ControlKept s t

/-- POP (42_stack.md section 2): the byte on top of the stack goes into the register and the stack pointer goes up
by one modulo 256; into R7 the byte goes first and is then incremented (D19, log entry 13). Memory and all else
but pc are unchanged. -/
def Obligations.PopLoadsRegister : Prop :=
  ∀ (s : State) (ra : Reg), ∃ t, exec (.pop (regByte ra)) s = .next t
    ∧ (ra ≠ .r7 → t.reg ra = s.byteAt (s.reg .r7).toNat
        ∧ (t.reg .r7).toNat = ((s.reg .r7).toNat + 1) % 256)
    ∧ (ra = .r7 → (t.reg .r7).toNat = ((s.byteAt (s.reg .r7).toNat).toNat + 1) % 256)
    ∧ t.pc = s.pc + 2
    ∧ RegsKept [ra, .r7] s t ∧ MemKept s t ∧ ControlKept s t

/-- 42_stack.md R163: PUSH then POP of the same register other than R7 brings back the register, the stack pointer
and every cell but the one written, which keeps the pushed value. -/
def Obligations.PushThenPopRoundTrip : Prop :=
  ∀ (s : State) (r : Reg), r ≠ .r7 →
    ∃ t u, exec (.push (regByte r)) s = .next t ∧ exec (.pop (regByte r)) t = .next u
      ∧ u.reg r = s.reg r ∧ u.reg .r7 = s.reg .r7 ∧ RegsKept [] s u
      ∧ MemKeptExcept (((s.reg .r7).toNat + 255) % 256) s u
      ∧ u.byteAt (((s.reg .r7).toNat + 255) % 256) = s.reg r

/-- The word that a running core pushes onto the place of the next instruction is what the next step executes
(20_memory.md section 8): pushing a HLT byte there halts the core, pushing an unimplemented byte faults it. -/
def Obligations.StoreSeenByNextFetch : Prop :=
  ∀ (s : State) (r : Reg), s.run = .running → s.pc.toNat ≤ 253 → r ≠ .r7 →
    s.byteAt s.pc.toNat = opcodeByte .push → s.byteAt (s.pc.toNat + 1) = regByte r →
    (s.decSp.reg .r7).toNat = s.pc.toNat + 2 →
    ∃ t, step s = .next t ∧ t.run = .running ∧ t.pc.toNat = s.pc.toNat + 2
      ∧ memRead t.pc.toNat t = .ok (s.reg r)
      ∧ (s.reg r = opcodeByte .hlt → ∃ u, step t = .next u ∧ u.run = .halted)
      ∧ (¬ ImplementedByte (s.reg r) → FaultsWith (.invalidOpcode (s.reg r)) t (step t))

/-! ## Plain instructions -/

/-- NOP (43_plain.md): pc goes 1 on and nothing else changes. -/
def Obligations.NopOnlyAdvances : Prop :=
  ∀ s : State, ∃ t, exec .nop s = .next t ∧ t.pc = s.pc + 1 ∧ RegsKept [] s t ∧ MemKept s t ∧ ControlKept s t

/-- HLT (43_plain.md): the run state becomes Halted; pc (D13, log entry 9) and all else are unchanged. -/
def Obligations.HltHalts : Prop :=
  ∀ s : State, ∃ t, exec .hlt s = .next t ∧ t.run = .halted ∧ t.pc = s.pc
    ∧ RegsKept [] s t ∧ MemKept s t ∧ t.fl = s.fl ∧ t.fault = s.fault ∧ t.out = s.out

/-- LDI (43_plain.md): the register takes the immediate, whatever byte it is. -/
def Obligations.LdiLoadsImmediate : Prop :=
  ∀ (s : State) (ra : Reg) (imm : Byte), WritesRegister (.ldi (regByte ra) imm) s ra imm.toNat 3

/-- PRN (43_plain.md): the register's value is appended to the output log and nothing else but pc changes. -/
def Obligations.PrnEmitsRegister : Prop :=
  ∀ (s : State) (ra : Reg), ∃ t, exec (.prn (regByte ra)) s = .next t
    ∧ t.out = s.out ++ [s.reg ra] ∧ outEvent s t = some (s.reg ra) ∧ t.pc = s.pc + 2
    ∧ RegsKept [] s t ∧ MemKept s t ∧ t.fl = s.fl ∧ t.run = s.run ∧ t.fault = s.fault

/-! ## Reserved opcodes -/

/-- The nine reserved instructions raise InvalidOpcode with their byte, whatever their operand bytes
(44_reserved.md, D8, log entry 25). -/
def Obligations.ReservedInstructionsFault : Prop :=
  ∀ (s : State) (a b : Byte),
    FaultsWith (.invalidOpcode 0x83) s (exec (.ld a b) s) ∧ FaultsWith (.invalidOpcode 0x84) s (exec (.st a b) s)
    ∧ FaultsWith (.invalidOpcode 0x48) s (exec (.pra a) s) ∧ FaultsWith (.invalidOpcode 0x57) s (exec (.jgt a) s)
    ∧ FaultsWith (.invalidOpcode 0x58) s (exec (.jlt a) s) ∧ FaultsWith (.invalidOpcode 0x59) s (exec (.jle a) s)
    ∧ FaultsWith (.invalidOpcode 0x5A) s (exec (.jge a) s) ∧ FaultsWith (.invalidOpcode 0x52) s (exec (.int a) s)
    ∧ FaultsWith (.invalidOpcode 0x13) s (exec .iret s)

/-! ## Whole rules of the attested instructions, as steps -/

/-- 40_alu.md R110, whole: the bytes A0 aa bb at pc of a running core, every operand byte at every value, at every
address. -/
def Obligations.AddStep : Prop :=
  ∀ s : State, s.run = .running → s.pc.toNat ≤ 255 → s.byteAt s.pc.toNat = 0xA0 →
    (254 ≤ s.pc.toNat → Raises (.addressOutOfRange .mem 256) s (step s))
    ∧ (s.pc.toNat ≤ 253 →
      (7 < (s.byteAt (s.pc.toNat + 1)).toNat →
        Raises (.addressOutOfRange .reg (s.byteAt (s.pc.toNat + 1)).toNat) s (step s))
      ∧ ((s.byteAt (s.pc.toNat + 1)).toNat ≤ 7 → 7 < (s.byteAt (s.pc.toNat + 2)).toNat →
        Raises (.addressOutOfRange .reg (s.byteAt (s.pc.toNat + 2)).toNat) s (step s))
      ∧ (∀ ra rb : Reg, s.byteAt (s.pc.toNat + 1) = regByte ra → s.byteAt (s.pc.toNat + 2) = regByte rb →
        ∃ t, step s = .next t
          ∧ (t.reg ra).toNat = ((s.reg ra).toNat + (s.reg rb).toNat) % 256
          ∧ t.pc.toNat = s.pc.toNat + 3 ∧ RegsKept [ra] s t ∧ MemKept s t ∧ ControlKept s t))

/-- 43_plain.md R172, whole: the bytes 82 aa ii at pc of a running core; the immediate is never checked. -/
def Obligations.LdiStep : Prop :=
  ∀ s : State, s.run = .running → s.pc.toNat ≤ 255 → s.byteAt s.pc.toNat = 0x82 →
    (254 ≤ s.pc.toNat → Raises (.addressOutOfRange .mem 256) s (step s))
    ∧ (s.pc.toNat ≤ 253 →
      (7 < (s.byteAt (s.pc.toNat + 1)).toNat →
        Raises (.addressOutOfRange .reg (s.byteAt (s.pc.toNat + 1)).toNat) s (step s))
      ∧ (∀ ra : Reg, s.byteAt (s.pc.toNat + 1) = regByte ra →
        ∃ t, step s = .next t ∧ t.reg ra = s.byteAt (s.pc.toNat + 2)
          ∧ t.pc.toNat = s.pc.toNat + 3 ∧ RegsKept [ra] s t ∧ MemKept s t ∧ ControlKept s t
          ∧ ∃ u, exec (.prn (regByte ra)) t = .next u ∧ u.out = s.out ++ [s.byteAt (s.pc.toNat + 2)]))

/-- 43_plain.md R173, whole: the bytes 47 aa at pc of a running core; a fault emits nothing; the host writes the
value's decimal numeral; and every other step leaves the output log as it was. -/
def Obligations.PrnStep : Prop :=
  (∀ s t : State, step s = .next t →
    s.run ≠ .running ∨ 255 < s.pc.toNat ∨ s.byteAt s.pc.toNat ≠ 0x47 → t.out = s.out)
  ∧ (∀ s t : State, step s = .next t → s.run = .running → t.run = .faulted → t.out = s.out)
  ∧ ∀ s : State, s.run = .running → s.pc.toNat ≤ 255 → s.byteAt s.pc.toNat = 0x47 →
    (s.pc.toNat = 255 → Raises (.addressOutOfRange .mem 256) s (step s))
    ∧ (s.pc.toNat ≤ 254 →
      (7 < (s.byteAt (s.pc.toNat + 1)).toNat →
        Raises (.addressOutOfRange .reg (s.byteAt (s.pc.toNat + 1)).toNat) s (step s))
      ∧ (∀ ra : Reg, s.byteAt (s.pc.toNat + 1) = regByte ra →
        ∃ t, step s = .next t ∧ t.out = s.out ++ [s.reg ra]
          ∧ renderOutput t.out = renderOutput s.out ++ [Nat.toDigits 10 (s.reg ra).toNat]
          ∧ t.pc.toNat = s.pc.toNat + 2 ∧ RegsKept [] s t ∧ MemKept s t
          ∧ t.fl = s.fl ∧ t.run = s.run ∧ t.fault = s.fault))

/-! ## Memory -/

/-- 20_memory.md R55: every cell is plain storage. A read answers the value last written, or 0 if none since
reset, and changes nothing; a write changes only its cell; all accesses are idempotent; and no instruction other
than PRN emits output. -/
def Obligations.MemoryIsPlainStorage : Prop :=
  (∀ (s : State) (a : Nat) (v : Byte), a ≤ 255 →
    memRead a s = .ok (s.byteAt a)
    ∧ ∃ t, memWrite a v s = .ok t ∧ t = { s with mem := t.mem }
      ∧ t.byteAt a = v ∧ MemKeptExcept a s t
      ∧ ∃ u, memWrite a v t = .ok u ∧ MemKept t u)
    ∧ (∀ a : Nat, State.reset.byteAt a = 0)
    ∧ ∀ (i : Instr) (s t : State), exec i s = .next t → i.opcode ≠ .prn → t.out = s.out

/-- Two memories in canonical form that read alike at every address are the same list (log entry 15). -/
def Obligations.CanonicalMemoriesAreEqual : Prop :=
  ∀ m n : Memory, m.wf = true → n.wf = true → (∀ a : Nat, m.byteAt a = n.byteAt a) → m = n

/-- Only PUSH and CALL write memory, one cell, at the decremented stack pointer (10_state.md section 6). -/
def Obligations.OnlyPushAndCallWriteMemory : Prop :=
  ∀ (i : Instr) (s t : State), exec i s = .next t → ∀ a : Nat, t.byteAt a ≠ s.byteAt a →
    (i.opcode = .push ∨ i.opcode = .call) ∧ a = (s.decSp.reg .r7).toNat

/-! ## The whole machine -/

/-- The invariant holds after reset (it includes the reset values of log entry 2). -/
def Obligations.InvariantHoldsAtReset : Prop := Inv State.reset

/-- Every step from every state that meets the invariant keeps it: the memory stays canonical, FL stays one of its
four values, pc stays at most 256, a fault record is there exactly in Faulted and is legal, and a halted pc points
at a HLT byte. The clauses rest on D4, D13, D14, D16 and D21 (log entries 3, 9, 10, 14). -/
def Obligations.StepKeepsInvariant : Prop :=
  ∀ s t : State, Inv s → step s = .next t → Inv t

/-- Which registers an instruction can change (10_state.md section 1): the one its first operand byte names, for
the instructions that write one, and R7 for PUSH, POP, CALL and RET. -/
def Obligations.OnlyNamedRegistersChange : Prop :=
  ∀ (i : Instr) (s t : State), exec i s = .next t → ∀ r : Reg, t.reg r ≠ s.reg r →
    (i.operands.head? = some (regByte r) ∧ i.opcode ∈
      ([.add, .sub, .mul, .div, .mod, .and, .or, .xor, .shl, .shr, .not, .inc, .dec, .ldi, .pop] : List Opcode))
    ∨ (r = .r7 ∧ i.opcode ∈ ([.push, .pop, .call, .ret] : List Opcode))

/-- How a step moves pc (45_execution_loop.md section 2): by the opcode's length when bit 4 of its byte is clear
and the core goes on; not at all when it halts (D13, log entry 9) or faults (D14, log entry 10); and when bit 4 is
set, to an 8-bit target or, for a conditional jump not taken, 2 bytes on. -/
def Obligations.StepMovesPc : Prop :=
  ∀ s t : State, s.run = .running → step s = .next t →
    (t.run ≠ .running → t.pc = s.pc)
    ∧ (t.run = .running → (classify (s.byteAt s.pc.toNat)).setsPc = false →
      t.pc.toNat = s.pc.toNat + (classify (s.byteAt s.pc.toNat)).length)
    ∧ (t.run = .running → (classify (s.byteAt s.pc.toNat)).setsPc = true →
      t.pc.toNat ≤ 255 ∨ (t.pc.toNat = s.pc.toNat + 2
        ∧ (s.byteAt s.pc.toNat = opcodeByte .jeq ∨ s.byteAt s.pc.toNat = opcodeByte .jne)))

/-- pc does not wrap at the top of memory (10_state.md section 2, D4, log entry 3): an instruction other than a
jump that ends at address 255 leaves pc at 256, and the next step raises AddressOutOfRange(mem, 256). -/
def Obligations.RunningOffTheTopFaults : Prop :=
  ∀ s t : State, s.run = .running → step s = .next t → t.run = .running →
    (classify (s.byteAt s.pc.toNat)).setsPc = false →
    s.pc.toNat + (classify (s.byteAt s.pc.toNat)).length = 256 →
    t.pc.toNat = 256 ∧ FaultsWith (.addressOutOfRange .mem 256) t (step t)

/-- 45_execution_loop.md R202: every state has a successor, and any number of steps from two states that agree in
registers, pc, FL, memory and run state ends in two states that agree in them and have emitted the same bytes; if
the fault records were the same, they still are. So a run from a launch state is determined by the loaded bytes. -/
def Obligations.RunsAreDetermined : Prop :=
  (∀ s : State, ∃ t, step s = .next t)
    ∧ ∀ (k : Nat) (s s' : State), Agree s s' →
      ∃ t t' : State, Host.Core.run Sys2Proof.core k s = .next t ∧ Host.Core.run Sys2Proof.core k s' = .next t'
        ∧ Agree t t' ∧ (∃ e : List Byte, t.out = s.out ++ e ∧ t'.out = s'.out ++ e)
        ∧ (s.fault = s'.fault → t.fault = t'.fault)

/-! ## What the host sees -/

/-- The status outputs (50_interfaces.md section 6; the codes are D16, log entries 10 and 19): a halt shows no
fault; a fault shows its kind's code, its pc and its information value. -/
def Obligations.StatusTellsHaltFromFault : Prop :=
  (∀ s : State, s.run = .halted →
    statusOf s = { runState := .halted, faultKind := 0, faultPc := none, faultInfo := none })
    ∧ ∀ (s t : State) (c : FaultCause), FaultsWith c s (.next t) →
      (statusOf t).runState = .faulted ∧ (statusOf t).faultPc = some s.pc
      ∧ (∀ b, c = .invalidOpcode b → (statusOf t).faultKind = 1 ∧ (statusOf t).faultInfo = some (b.setWidth 9))
      ∧ (c = .divisionByZero → (statusOf t).faultKind = 2 ∧ (statusOf t).faultInfo = some 0)
      ∧ (∀ sp n, c = .addressOutOfRange sp n → n < 512 →
          (statusOf t).faultKind = 3 ∧ ((statusOf t).faultInfo.map BitVec.toNat) = some n)

/-- The host's line for an emitted byte is its shortest decimal numeral (50_interfaces.md section 5, D23, log
entry 20): its digits read the value, and it has no leading zero. -/
def Obligations.RenderedLineIsShortestNumeral : Prop :=
  ∀ v : Byte,
    (renderByte v).foldl (fun n c => 10 * n + (c.toNat - 48)) 0 = v.toNat
    ∧ (∀ c ∈ renderByte v, 48 ≤ c.toNat ∧ c.toNat ≤ 57)
    ∧ 1 ≤ (renderByte v).length ∧ (renderByte v).length ≤ 3
    ∧ (1 < (renderByte v).length → (renderByte v).head? ≠ some '0')
end

