-- ==== Sys2Proof/Laws/State.lean ====
section
/-! SUPPORT. One lemma per field per update of State, true by rfl, so that no later proof unfolds an update. -/

namespace Sys2Proof.Machine

@[simp] theorem State.setReg_regs (s : State) (r : Reg) (v : Byte) : (s.setReg r v).regs = s.regs.set r v := rfl
@[simp] theorem State.setReg_pc (s : State) (r : Reg) (v : Byte) : (s.setReg r v).pc = s.pc := rfl
@[simp] theorem State.setReg_fl (s : State) (r : Reg) (v : Byte) : (s.setReg r v).fl = s.fl := rfl
@[simp] theorem State.setReg_mem (s : State) (r : Reg) (v : Byte) : (s.setReg r v).mem = s.mem := rfl
@[simp] theorem State.setReg_run (s : State) (r : Reg) (v : Byte) : (s.setReg r v).run = s.run := rfl
@[simp] theorem State.setReg_fault (s : State) (r : Reg) (v : Byte) : (s.setReg r v).fault = s.fault := rfl
@[simp] theorem State.setReg_out (s : State) (r : Reg) (v : Byte) : (s.setReg r v).out = s.out := rfl
@[simp] theorem State.setReg_byteAt (s : State) (r : Reg) (v : Byte) (k : Nat) : (s.setReg r v).byteAt k = s.byteAt k := rfl

@[simp] theorem State.jumpTo_regs (s : State) (v : Byte) : (s.jumpTo v).regs = s.regs := rfl
@[simp] theorem State.jumpTo_pc (s : State) (v : Byte) : (s.jumpTo v).pc = v.setWidth 9 := rfl
@[simp] theorem State.jumpTo_fl (s : State) (v : Byte) : (s.jumpTo v).fl = s.fl := rfl
@[simp] theorem State.jumpTo_mem (s : State) (v : Byte) : (s.jumpTo v).mem = s.mem := rfl
@[simp] theorem State.jumpTo_run (s : State) (v : Byte) : (s.jumpTo v).run = s.run := rfl
@[simp] theorem State.jumpTo_fault (s : State) (v : Byte) : (s.jumpTo v).fault = s.fault := rfl
@[simp] theorem State.jumpTo_out (s : State) (v : Byte) : (s.jumpTo v).out = s.out := rfl
@[simp] theorem State.jumpTo_reg (s : State) (v : Byte) (q : Reg) : (s.jumpTo v).reg q = s.reg q := rfl
@[simp] theorem State.jumpTo_byteAt (s : State) (v : Byte) (k : Nat) : (s.jumpTo v).byteAt k = s.byteAt k := rfl

@[simp] theorem State.advance_regs (s : State) (n : Nat) : (s.advance n).regs = s.regs := rfl
@[simp] theorem State.advance_pc (s : State) (n : Nat) : (s.advance n).pc = s.pc + BitVec.ofNat 9 n := rfl
@[simp] theorem State.advance_fl (s : State) (n : Nat) : (s.advance n).fl = s.fl := rfl
@[simp] theorem State.advance_mem (s : State) (n : Nat) : (s.advance n).mem = s.mem := rfl
@[simp] theorem State.advance_run (s : State) (n : Nat) : (s.advance n).run = s.run := rfl
@[simp] theorem State.advance_fault (s : State) (n : Nat) : (s.advance n).fault = s.fault := rfl
@[simp] theorem State.advance_out (s : State) (n : Nat) : (s.advance n).out = s.out := rfl
@[simp] theorem State.advance_reg (s : State) (n : Nat) (q : Reg) : (s.advance n).reg q = s.reg q := rfl
@[simp] theorem State.advance_byteAt (s : State) (n : Nat) (k : Nat) : (s.advance n).byteAt k = s.byteAt k := rfl

@[simp] theorem State.setFl_regs (s : State) (v : Byte) : (s.setFl v).regs = s.regs := rfl
@[simp] theorem State.setFl_pc (s : State) (v : Byte) : (s.setFl v).pc = s.pc := rfl
@[simp] theorem State.setFl_fl (s : State) (v : Byte) : (s.setFl v).fl = v := rfl
@[simp] theorem State.setFl_mem (s : State) (v : Byte) : (s.setFl v).mem = s.mem := rfl
@[simp] theorem State.setFl_run (s : State) (v : Byte) : (s.setFl v).run = s.run := rfl
@[simp] theorem State.setFl_fault (s : State) (v : Byte) : (s.setFl v).fault = s.fault := rfl
@[simp] theorem State.setFl_out (s : State) (v : Byte) : (s.setFl v).out = s.out := rfl
@[simp] theorem State.setFl_reg (s : State) (v : Byte) (q : Reg) : (s.setFl v).reg q = s.reg q := rfl
@[simp] theorem State.setFl_byteAt (s : State) (v : Byte) (k : Nat) : (s.setFl v).byteAt k = s.byteAt k := rfl

@[simp] theorem State.setByte_regs (s : State) (a : Nat) (v : Byte) : (s.setByte a v).regs = s.regs := rfl
@[simp] theorem State.setByte_pc (s : State) (a : Nat) (v : Byte) : (s.setByte a v).pc = s.pc := rfl
@[simp] theorem State.setByte_fl (s : State) (a : Nat) (v : Byte) : (s.setByte a v).fl = s.fl := rfl
@[simp] theorem State.setByte_mem (s : State) (a : Nat) (v : Byte) : (s.setByte a v).mem = s.mem.store a v := rfl
@[simp] theorem State.setByte_run (s : State) (a : Nat) (v : Byte) : (s.setByte a v).run = s.run := rfl
@[simp] theorem State.setByte_fault (s : State) (a : Nat) (v : Byte) : (s.setByte a v).fault = s.fault := rfl
@[simp] theorem State.setByte_out (s : State) (a : Nat) (v : Byte) : (s.setByte a v).out = s.out := rfl
@[simp] theorem State.setByte_reg (s : State) (a : Nat) (v : Byte) (q : Reg) : (s.setByte a v).reg q = s.reg q := rfl

@[simp] theorem State.emit_regs (s : State) (v : Byte) : (s.emit v).regs = s.regs := rfl
@[simp] theorem State.emit_pc (s : State) (v : Byte) : (s.emit v).pc = s.pc := rfl
@[simp] theorem State.emit_fl (s : State) (v : Byte) : (s.emit v).fl = s.fl := rfl
@[simp] theorem State.emit_mem (s : State) (v : Byte) : (s.emit v).mem = s.mem := rfl
@[simp] theorem State.emit_run (s : State) (v : Byte) : (s.emit v).run = s.run := rfl
@[simp] theorem State.emit_fault (s : State) (v : Byte) : (s.emit v).fault = s.fault := rfl
@[simp] theorem State.emit_out (s : State) (v : Byte) : (s.emit v).out = s.out ++ [v] := rfl
@[simp] theorem State.emit_reg (s : State) (v : Byte) (q : Reg) : (s.emit v).reg q = s.reg q := rfl
@[simp] theorem State.emit_byteAt (s : State) (v : Byte) (k : Nat) : (s.emit v).byteAt k = s.byteAt k := rfl

@[simp] theorem State.halt_regs (s : State) : s.halt.regs = s.regs := rfl
@[simp] theorem State.halt_pc (s : State) : s.halt.pc = s.pc := rfl
@[simp] theorem State.halt_fl (s : State) : s.halt.fl = s.fl := rfl
@[simp] theorem State.halt_mem (s : State) : s.halt.mem = s.mem := rfl
@[simp] theorem State.halt_run (s : State) : s.halt.run = .halted := rfl
@[simp] theorem State.halt_fault (s : State) : s.halt.fault = s.fault := rfl
@[simp] theorem State.halt_out (s : State) : s.halt.out = s.out := rfl
@[simp] theorem State.halt_reg (s : State) (q : Reg) : (s.halt).reg q = s.reg q := rfl
@[simp] theorem State.halt_byteAt (s : State) (k : Nat) : (s.halt).byteAt k = s.byteAt k := rfl

@[simp] theorem State.decSp_regs (s : State) : s.decSp.regs = s.regs.set .r7 (mask8 ((s.reg .r7).toNat - 1)) := rfl
@[simp] theorem State.decSp_pc (s : State) : s.decSp.pc = s.pc := rfl
@[simp] theorem State.decSp_fl (s : State) : s.decSp.fl = s.fl := rfl
@[simp] theorem State.decSp_mem (s : State) : s.decSp.mem = s.mem := rfl
@[simp] theorem State.decSp_run (s : State) : s.decSp.run = s.run := rfl
@[simp] theorem State.decSp_fault (s : State) : s.decSp.fault = s.fault := rfl
@[simp] theorem State.decSp_out (s : State) : s.decSp.out = s.out := rfl
@[simp] theorem State.decSp_byteAt (s : State) (k : Nat) : (s.decSp).byteAt k = s.byteAt k := rfl

@[simp] theorem State.incSp_regs (s : State) : s.incSp.regs = s.regs.set .r7 (mask8 ((s.reg .r7).toNat + 1)) := rfl
@[simp] theorem State.incSp_pc (s : State) : s.incSp.pc = s.pc := rfl
@[simp] theorem State.incSp_fl (s : State) : s.incSp.fl = s.fl := rfl
@[simp] theorem State.incSp_mem (s : State) : s.incSp.mem = s.mem := rfl
@[simp] theorem State.incSp_run (s : State) : s.incSp.run = s.run := rfl
@[simp] theorem State.incSp_fault (s : State) : s.incSp.fault = s.fault := rfl
@[simp] theorem State.incSp_out (s : State) : s.incSp.out = s.out := rfl
@[simp] theorem State.incSp_byteAt (s : State) (k : Nat) : (s.incSp).byteAt k = s.byteAt k := rfl

@[simp] theorem State.withBytes_regs (s : State) (a : Nat) (bs : List Byte) : (s.withBytes a bs).regs = s.regs := rfl
@[simp] theorem State.withBytes_pc (s : State) (a : Nat) (bs : List Byte) : (s.withBytes a bs).pc = s.pc := rfl
@[simp] theorem State.withBytes_fl (s : State) (a : Nat) (bs : List Byte) : (s.withBytes a bs).fl = s.fl := rfl
@[simp] theorem State.withBytes_mem (s : State) (a : Nat) (bs : List Byte) : (s.withBytes a bs).mem = loadBytes s.mem a bs := rfl
@[simp] theorem State.withBytes_run (s : State) (a : Nat) (bs : List Byte) : (s.withBytes a bs).run = s.run := rfl
@[simp] theorem State.withBytes_fault (s : State) (a : Nat) (bs : List Byte) : (s.withBytes a bs).fault = s.fault := rfl
@[simp] theorem State.withBytes_out (s : State) (a : Nat) (bs : List Byte) : (s.withBytes a bs).out = s.out := rfl
@[simp] theorem State.withBytes_reg (s : State) (a : Nat) (bs : List Byte) (q : Reg) : (s.withBytes a bs).reg q = s.reg q := rfl

@[simp] theorem raise_regs (s : State) (c : FaultCause) : (raise c s).regs = s.regs := rfl
@[simp] theorem raise_pc (s : State) (c : FaultCause) : (raise c s).pc = s.pc := rfl
@[simp] theorem raise_fl (s : State) (c : FaultCause) : (raise c s).fl = s.fl := rfl
@[simp] theorem raise_mem (s : State) (c : FaultCause) : (raise c s).mem = s.mem := rfl
@[simp] theorem raise_run (s : State) (c : FaultCause) : (raise c s).run = .faulted := rfl
@[simp] theorem raise_fault (s : State) (c : FaultCause) : (raise c s).fault = some { cause := c, fpc := s.pc } := rfl
@[simp] theorem raise_out (s : State) (c : FaultCause) : (raise c s).out = s.out := rfl
@[simp] theorem raise_reg (s : State) (c : FaultCause) (q : Reg) : (raise c s).reg q = s.reg q := rfl
@[simp] theorem raise_byteAt (s : State) (c : FaultCause) (k : Nat) : (raise c s).byteAt k = s.byteAt k := rfl

end Sys2Proof.Machine
end

