-- ==== Sys2Proof/Laws/Memory.lean ====
section
/-! SUPPORT. The memory: read after write, and the canonical form, which every memory operation keeps. -/

namespace Sys2Proof.Machine

theorem Memory.byteAt_filter_ne (m : Memory) (a b : Nat) (h : b ≠ a) :
    Memory.byteAt (m.filter fun c => c.1 != a) b = m.byteAt b := by
  induction m with
  | nil => rfl
  | cons c m ih =>
    obtain ⟨k, v⟩ := c
    by_cases hk : k = a
    · subst hk; simp [Memory.byteAt, h, ih]
    · simp [Memory.byteAt, hk, ih]

theorem Memory.byteAt_filter_same (m : Memory) (a : Nat) :
    Memory.byteAt (m.filter fun c => c.1 != a) a = Memory.unlisted := by
  induction m with
  | nil => rfl
  | cons c m ih =>
    obtain ⟨k, v⟩ := c
    by_cases hk : k = a
    · subst hk; simpa using ih
    · have hk' : a ≠ k := fun e => hk e.symm
      simp only [ne_eq, hk, not_false_eq_true, bne_iff_ne, List.filter_cons_of_pos, Memory.byteAt, hk', if_false]
      exact ih

theorem Memory.byteAt_insert_same (m : Memory) (a : Nat) (v : Byte) (h : ∀ c ∈ m, c.1 ≠ a) :
    (m.insert a v).byteAt a = v := by
  induction m with
  | nil => simp [Memory.insert, Memory.byteAt]
  | cons c m ih =>
    obtain ⟨k, w⟩ := c
    have hk : a ≠ k := fun e => h (k, w) (by simp) e.symm
    have hm : ∀ c ∈ m, c.1 ≠ a := fun c hc => h c (by simp [hc])
    unfold Memory.insert
    split
    · simp [Memory.byteAt]
    · simp [Memory.byteAt, hk, ih hm]

theorem Memory.byteAt_insert_ne (m : Memory) (a b : Nat) (v : Byte) (h : b ≠ a) :
    (m.insert a v).byteAt b = m.byteAt b := by
  induction m with
  | nil => simp [Memory.insert, Memory.byteAt, h]
  | cons c m ih =>
    obtain ⟨k, w⟩ := c
    unfold Memory.insert
    split
    · simp [Memory.byteAt, h]
    · simp [Memory.byteAt, ih]

/-- Everything a store does to a memory, as seen by reads. -/
theorem Memory.byteAt_store (m : Memory) (a b : Nat) (v : Byte) :
    (m.store a v).byteAt b = if b = a then v else m.byteAt b := by
  unfold Memory.store
  by_cases hv : v = Memory.unlisted <;> by_cases hb : b = a
  · subst hb; simp only [hv, if_true]; exact Memory.byteAt_filter_same m b
  · simp only [hv, hb, if_true, if_false]; exact Memory.byteAt_filter_ne m a b hb
  · subst hb
    simp only [hv, if_true, if_false]
    exact Memory.byteAt_insert_same _ b v (by intro c hc; simpa using (List.mem_filter.mp hc).2)
  · simp only [hv, hb, if_false]
    rw [Memory.byteAt_insert_ne _ a b v hb, Memory.byteAt_filter_ne m a b hb]

theorem Memory.wfFrom_mono (m : Memory) {lo lo' : Nat} (h : lo' ≤ lo) (hm : Memory.wfFrom lo m = true) :
    Memory.wfFrom lo' m = true := by
  cases m with
  | nil => rfl
  | cons c m =>
    obtain ⟨k, v⟩ := c
    simp only [Memory.wfFrom, Bool.and_eq_true, decide_eq_true_eq] at hm ⊢
    exact ⟨⟨⟨by omega, hm.1.1.2⟩, hm.1.2⟩, hm.2⟩

theorem Memory.wfFrom_filter (m : Memory) (a : Nat) {lo : Nat} (hm : Memory.wfFrom lo m = true) :
    Memory.wfFrom lo (m.filter fun c => c.1 != a) = true := by
  induction m generalizing lo with
  | nil => rfl
  | cons c m ih =>
    obtain ⟨k, v⟩ := c
    simp only [Memory.wfFrom, Bool.and_eq_true, decide_eq_true_eq] at hm
    by_cases hk : k = a
    · have := Memory.wfFrom_mono _ (by omega : lo ≤ k + 1) (ih hm.2)
      simpa [hk] using this
    · simpa [hk, Memory.wfFrom, hm.1.1.1, hm.1.1.2, hm.1.2] using ih hm.2

theorem Memory.wfFrom_insert (m : Memory) (a : Nat) (v : Byte) {lo : Nat} (hlo : lo ≤ a) (ha : a ≤ 255)
    (hv : v ≠ Memory.unlisted) (hne : ∀ c ∈ m, c.1 ≠ a) (hm : Memory.wfFrom lo m = true) :
    Memory.wfFrom lo (m.insert a v) = true := by
  induction m generalizing lo with
  | nil => simp [Memory.insert, Memory.wfFrom, hlo, ha, hv]
  | cons c m ih =>
    obtain ⟨k, w⟩ := c
    have hk : k ≠ a := hne (k, w) (by simp)
    simp only [Memory.wfFrom, Bool.and_eq_true, decide_eq_true_eq] at hm
    unfold Memory.insert
    split
    · rename_i hlt
      simp only [Memory.wfFrom, Bool.and_eq_true, decide_eq_true_eq]
      exact ⟨⟨⟨hlo, ha⟩, hv⟩, ⟨⟨by omega, hm.1.1.2⟩, hm.1.2⟩, hm.2⟩
    · rename_i hlt
      simp only [Memory.wfFrom, Bool.and_eq_true, decide_eq_true_eq]
      exact ⟨hm.1, ih (by omega) (fun c hc => hne c (by simp [hc])) hm.2⟩

/-- A store to an address of memory keeps the canonical form. -/
theorem Memory.wf_store (m : Memory) (a : Nat) (v : Byte) (ha : a ≤ 255) (hm : m.wf = true) :
    (m.store a v).wf = true := by
  unfold Memory.store
  by_cases hv : v = Memory.unlisted
  · rw [if_pos hv]; exact Memory.wfFrom_filter m a hm
  · simp only [hv, if_false]
    exact Memory.wfFrom_insert _ a v (Nat.zero_le a) ha hv
      (by intro c hc; simpa using (List.mem_filter.mp hc).2) (Memory.wfFrom_filter m a hm)

/-- Loading bytes keeps the canonical form. -/
theorem wf_loadBytes (bs : List Byte) (m : Memory) (a : Nat) (hm : m.wf = true) :
    (loadBytes m a bs).wf = true := by
  induction bs generalizing m a with
  | nil => exact hm
  | cons b bs ih =>
    unfold loadBytes
    apply ih
    split
    · exact hm
    · exact Memory.wf_store m a b (by omega) hm

/-- The memory after reset is in canonical form. -/
theorem reset_mem_wf : State.reset.mem.wf = true := rfl

@[simp] theorem State.setByte_byteAt (s : State) (a : Nat) (v : Byte) (b : Nat) :
    (s.setByte a v).byteAt b = if b = a then v else s.byteAt b :=
  Memory.byteAt_store s.mem a b v

/-- Everything a checked read can answer. -/
theorem memRead_eq (addr : Nat) (s : State) :
    memRead addr s = if addr > 255 then .error (.addressOutOfRange .mem addr) else .ok (s.byteAt addr) := rfl

/-- A read at an 8-bit address never raises (20_memory.md R57, R58). -/
@[simp] theorem memRead_toNat (b : Byte) (s : State) : memRead b.toNat s = .ok (s.byteAt b.toNat) := by
  have := b.isLt
  rw [memRead, if_neg (by omega)]

/-- A write at an 8-bit address never raises (20_memory.md R57, R58). -/
@[simp] theorem memWrite_toNat (b v : Byte) (s : State) : memWrite b.toNat v s = .ok (s.setByte b.toNat v) := by
  have := b.isLt
  rw [memWrite, if_neg (by omega)]

/-- A checked write that answers keeps the canonical form. -/
theorem memWrite_keeps_wf {addr : Nat} {v : Byte} {s t : State} (h : memWrite addr v s = .ok t)
    (hs : s.mem.wf = true) : t.mem.wf = true := by
  unfold memWrite at h
  split at h
  · cases h
  · cases h; exact Memory.wf_store s.mem addr v (by omega) hs

end Sys2Proof.Machine
end

