-- ==== Sys2Proof/Laws/Registers.lean ====
section
/-! SUPPORT. Registers, register operands and the end of an instruction: what each shared operation can do. -/

namespace Sys2Proof.Machine

/-- Everything a register write does, as seen by reads. -/
theorem RegFile.get_set (f : RegFile) (r q : Reg) (v : Byte) :
    (f.set r v).get q = if q = r then v else f.get q := by
  cases r <;> cases q <;> rfl

@[simp] theorem State.setReg_reg (s : State) (r : Reg) (v : Byte) (q : Reg) :
    (s.setReg r v).reg q = if q = r then v else s.reg q :=
  RegFile.get_set s.regs r q v

@[simp] theorem State.decSp_reg (s : State) (q : Reg) :
    s.decSp.reg q = if q = .r7 then mask8 ((s.reg .r7).toNat - 1) else s.reg q :=
  State.setReg_reg s .r7 _ q

@[simp] theorem State.incSp_reg (s : State) (q : Reg) :
    s.incSp.reg q = if q = .r7 then mask8 ((s.reg .r7).toNat + 1) else s.reg q :=
  State.setReg_reg s .r7 _ q

/-- `mask8` is the residue modulo 256 (00_scope.md R10). -/
theorem mask8_toNat (v : Int) : (mask8 v).toNat = (v % 256).toNat := by
  simp [mask8, BitVec.toNat_ofInt]

/-- `mask8` of a natural number. -/
theorem mask8_natCast_toNat (n : Nat) : (mask8 (n : Int)).toNat = n % 256 := by
  rw [mask8_toNat]; omega

/-- The operand byte of a register names that register. -/
@[simp] theorem ridx_regByte (r : Reg) : ridx (regByte r) = .ok r := by
  cases r <;> rfl

theorem regByte_toNat (r : Reg) : (regByte r).toNat = r.index := by
  cases r <;> rfl

/-- An operand byte 8..255 raises (30_encoding.md R92). -/
theorem ridx_of_gt {b : Byte} (h : 7 < b.toNat) : ridx b = .error (.addressOutOfRange .reg b.toNat) := by
  unfold ridx
  have hb : regOfIndex b.toNat = none := by
    unfold regOfIndex
    split <;> first | omega | rfl
  rw [hb]

/-- An operand byte 0..7 is the operand byte of a register (30_encoding.md R92). -/
theorem eq_regByte_of_le {b : Byte} (h : b.toNat ≤ 7) : ∃ r, b = regByte r := by
  have h8 : b = BitVec.ofNat 8 b.toNat := by simp
  rw [h8]
  generalize b.toNat = n at h
  interval_cases n
  · exact ⟨.r0, rfl⟩
  · exact ⟨.r1, rfl⟩
  · exact ⟨.r2, rfl⟩
  · exact ⟨.r3, rfl⟩
  · exact ⟨.r4, rfl⟩
  · exact ⟨.r5, rfl⟩
  · exact ⟨.r6, rfl⟩
  · exact ⟨.r7, rfl⟩

/-- Everything a register operand can be: the byte of a register, or a byte that raises. -/
theorem ridx_cases (b : Byte) :
    (∃ r, b = regByte r ∧ ridx b = .ok r) ∨
      (7 < b.toNat ∧ ridx b = .error (.addressOutOfRange .reg b.toNat)) := by
  by_cases h : b.toNat ≤ 7
  · obtain ⟨r, rfl⟩ := eq_regByte_of_le h
    exact .inl ⟨r, rfl, ridx_regByte r⟩
  · exact .inr ⟨by omega, ridx_of_gt (by omega)⟩

@[simp] theorem conclude_ok (s t : State) : conclude s (.ok t) = .next t := rfl

@[simp] theorem conclude_error (s : State) (c : FaultCause) : conclude s (.error c) = .next (raise c s) := rfl

/-- Everything the end of an instruction can do: the computed state, or the fault taken in the first state. -/
theorem conclude_next {s t : State} {r : Check State} (h : conclude s r = .next t) :
    r = .ok t ∨ ∃ c, r = .error c ∧ t = raise c s := by
  cases r with
  | ok u => left; simpa using h
  | error c => right; exact ⟨c, rfl, by simpa using h.symm⟩

@[simp] theorem withReg_regByte (r : Reg) (s : State) (body : Reg → Check State) :
    withReg (regByte r) s body = conclude s (body r) := by
  rw [withReg, ridx_regByte]; rfl

theorem withReg_of_gt {a : Byte} (h : 7 < a.toNat) (s : State) (body : Reg → Check State) :
    withReg a s body = .next (raise (.addressOutOfRange .reg a.toNat) s) := by
  rw [withReg, ridx_of_gt h]; rfl

/-- Everything an instruction with one register operand can do. -/
theorem withReg_next {a : Byte} {s t : State} {body : Reg → Check State} (h : withReg a s body = .next t) :
    (∃ r, a = regByte r ∧ body r = .ok t) ∨ ∃ c, t = raise c s := by
  rcases ridx_cases a with ⟨r, rfl, -⟩ | ⟨hgt, -⟩
  · rw [withReg_regByte] at h
    rcases conclude_next h with h | ⟨c, -, h⟩
    · exact .inl ⟨r, rfl, h⟩
    · exact .inr ⟨c, h⟩
  · rw [withReg_of_gt hgt] at h
    exact .inr ⟨_, (Host.Outcome.next.inj h).symm⟩

@[simp] theorem withRegs_regByte (r q : Reg) (s : State) (body : Reg → Reg → Check State) :
    withRegs (regByte r) (regByte q) s body = conclude s (body r q) := by
  rw [withRegs, ridx_regByte, ridx_regByte]; rfl

theorem withRegs_of_gt_left {a : Byte} (h : 7 < a.toNat) (b : Byte) (s : State) (body : Reg → Reg → Check State) :
    withRegs a b s body = .next (raise (.addressOutOfRange .reg a.toNat) s) := by
  rw [withRegs, ridx_of_gt h]; rfl

theorem withRegs_of_gt_right (r : Reg) {b : Byte} (h : 7 < b.toNat) (s : State) (body : Reg → Reg → Check State) :
    withRegs (regByte r) b s body = .next (raise (.addressOutOfRange .reg b.toNat) s) := by
  rw [withRegs, ridx_regByte, ridx_of_gt h]; rfl

/-- Everything an instruction with two register operands can do. -/
theorem withRegs_next {a b : Byte} {s t : State} {body : Reg → Reg → Check State}
    (h : withRegs a b s body = .next t) :
    (∃ r q, a = regByte r ∧ b = regByte q ∧ body r q = .ok t) ∨ ∃ c, t = raise c s := by
  rcases ridx_cases a with ⟨r, rfl, -⟩ | ⟨hgt, -⟩
  · rcases ridx_cases b with ⟨q, rfl, -⟩ | ⟨hgt, -⟩
    · rw [withRegs_regByte] at h
      rcases conclude_next h with h | ⟨c, -, h⟩
      · exact .inl ⟨r, q, rfl, rfl, h⟩
      · exact .inr ⟨c, h⟩
    · rw [withRegs_of_gt_right r hgt] at h
      exact .inr ⟨_, (Host.Outcome.next.inj h).symm⟩
  · rw [withRegs_of_gt_left hgt] at h
    exact .inr ⟨_, (Host.Outcome.next.inj h).symm⟩

end Sys2Proof.Machine
end

