-- ==== Sys2Proof/Laws/Exec.lean ====
section
/-! SUPPORT. One equation per instruction on legal operands, so that no proof unfolds a meaning, the two frames of
the ALU, and what the fetch and the step answer. -/

namespace Sys2Proof.Machine

@[simp] theorem check_bind_ok {α β : Type} (a : α) (f : α → Check β) : ((.ok a : Check α) >>= f) = f a := rfl

@[simp] theorem check_bind_error {α β : Type} (c : FaultCause) (f : α → Check β) :
    ((.error c : Check α) >>= f) = .error c := rfl

theorem aluBinary_regByte (f : Byte → Byte → Byte) (ra rb : Reg) (s : State) :
    aluBinary f (regByte ra) (regByte rb) s = .next ((s.setReg ra (f (s.reg ra) (s.reg rb))).advance 3) := by
  rw [aluBinary, withRegs_regByte]; rfl

theorem aluDividing_regByte (f : Byte → Byte → Byte) (ra rb : Reg) (s : State) :
    aluDividing f (regByte ra) (regByte rb) s =
      if s.reg rb = 0 then .next (raise .divisionByZero s)
      else .next ((s.setReg ra (f (s.reg ra) (s.reg rb))).advance 3) := by
  rw [aluDividing, withRegs_regByte]; split <;> rfl

theorem aluUnary_regByte (f : Byte → Byte) (ra : Reg) (s : State) :
    aluUnary f (regByte ra) s = .next ((s.setReg ra (f (s.reg ra))).advance 2) := by
  rw [aluUnary, withReg_regByte]; rfl

theorem exec_inc_regByte (ra : Reg) (s : State) :
    exec (.inc (regByte ra)) s = .next ((s.setReg ra (aluInc (s.reg ra))).advance 2) :=
  aluUnary_regByte aluInc ra s

theorem exec_dec_regByte (ra : Reg) (s : State) :
    exec (.dec (regByte ra)) s = .next ((s.setReg ra (aluDec (s.reg ra))).advance 2) :=
  aluUnary_regByte aluDec ra s

theorem exec_not_regByte (ra : Reg) (s : State) :
    exec (.not (regByte ra)) s = .next ((s.setReg ra (aluNot (s.reg ra))).advance 2) :=
  aluUnary_regByte aluNot ra s

theorem exec_add_regByte (ra rb : Reg) (s : State) :
    exec (.add (regByte ra) (regByte rb)) s = .next ((s.setReg ra (aluAdd (s.reg ra) (s.reg rb))).advance 3) :=
  aluBinary_regByte aluAdd ra rb s

theorem exec_sub_regByte (ra rb : Reg) (s : State) :
    exec (.sub (regByte ra) (regByte rb)) s = .next ((s.setReg ra (aluSub (s.reg ra) (s.reg rb))).advance 3) :=
  aluBinary_regByte aluSub ra rb s

theorem exec_mul_regByte (ra rb : Reg) (s : State) :
    exec (.mul (regByte ra) (regByte rb)) s = .next ((s.setReg ra (aluMul (s.reg ra) (s.reg rb))).advance 3) :=
  aluBinary_regByte aluMul ra rb s

theorem exec_div_regByte (ra rb : Reg) (s : State) :
    exec (.div (regByte ra) (regByte rb)) s =
      if s.reg rb = 0 then .next (raise .divisionByZero s)
      else .next ((s.setReg ra (aluDiv (s.reg ra) (s.reg rb))).advance 3) :=
  aluDividing_regByte aluDiv ra rb s

theorem exec_mod_regByte (ra rb : Reg) (s : State) :
    exec (.mod (regByte ra) (regByte rb)) s =
      if s.reg rb = 0 then .next (raise .divisionByZero s)
      else .next ((s.setReg ra (aluMod (s.reg ra) (s.reg rb))).advance 3) :=
  aluDividing_regByte aluMod ra rb s

theorem exec_and_regByte (ra rb : Reg) (s : State) :
    exec (.and (regByte ra) (regByte rb)) s = .next ((s.setReg ra (aluAnd (s.reg ra) (s.reg rb))).advance 3) :=
  aluBinary_regByte aluAnd ra rb s

theorem exec_or_regByte (ra rb : Reg) (s : State) :
    exec (.or (regByte ra) (regByte rb)) s = .next ((s.setReg ra (aluOr (s.reg ra) (s.reg rb))).advance 3) :=
  aluBinary_regByte aluOr ra rb s

theorem exec_xor_regByte (ra rb : Reg) (s : State) :
    exec (.xor (regByte ra) (regByte rb)) s = .next ((s.setReg ra (aluXor (s.reg ra) (s.reg rb))).advance 3) :=
  aluBinary_regByte aluXor ra rb s

theorem exec_shl_regByte (ra rb : Reg) (s : State) :
    exec (.shl (regByte ra) (regByte rb)) s = .next ((s.setReg ra (aluShl (s.reg ra) (s.reg rb))).advance 3) :=
  aluBinary_regByte aluShl ra rb s

theorem exec_shr_regByte (ra rb : Reg) (s : State) :
    exec (.shr (regByte ra) (regByte rb)) s = .next ((s.setReg ra (aluShr (s.reg ra) (s.reg rb))).advance 3) :=
  aluBinary_regByte aluShr ra rb s

theorem exec_cmp_regByte (ra rb : Reg) (s : State) :
    exec (.cmp (regByte ra) (regByte rb)) s = .next ((s.setFl (compareFlags (s.reg ra) (s.reg rb))).advance 3) := by
  rw [exec, execCmp, withRegs_regByte]; rfl

theorem exec_jmp_regByte (ra : Reg) (s : State) :
    exec (.jmp (regByte ra)) s = .next (s.jumpTo (s.reg ra)) := by
  rw [exec, execJmp, withReg_regByte]; rfl

theorem exec_jeq_regByte (ra : Reg) (s : State) :
    exec (.jeq (regByte ra)) s = .next (if s.equalFlag then s.jumpTo (s.reg ra) else s.advance 2) := by
  rw [exec, execJeq, withReg_regByte]; rfl

theorem exec_jne_regByte (ra : Reg) (s : State) :
    exec (.jne (regByte ra)) s = .next (if s.equalFlag then s.advance 2 else s.jumpTo (s.reg ra)) := by
  rw [exec, execJne, withReg_regByte]; rfl

theorem exec_call_regByte (ra : Reg) (s : State) :
    exec (.call (regByte ra)) s =
      if s.pc.toNat + 2 > 255 then .next (raise (.addressOutOfRange .mem (s.pc.toNat + 2)) s)
      else .next ((s.decSp.setByte (s.decSp.reg .r7).toNat (BitVec.ofNat 8 (s.pc.toNat + 2))).jumpTo (s.decSp.reg ra)) := by
  rw [exec, execCall, withReg_regByte]
  simp only [memWrite_toNat, check_bind_ok, State.setByte_reg]
  split <;> rfl

theorem exec_ret (s : State) : exec .ret s = .next (s.jumpTo (s.byteAt (s.reg .r7).toNat)).incSp := by
  rw [exec, execRet, memRead_toNat]; rfl

theorem exec_push_regByte (ra : Reg) (s : State) :
    exec (.push (regByte ra)) s = .next ((s.decSp.setByte (s.decSp.reg .r7).toNat (s.decSp.reg ra)).advance 2) := by
  rw [exec, execPush, withReg_regByte]
  simp only [memWrite_toNat, check_bind_ok, conclude_ok]

theorem exec_pop_regByte (ra : Reg) (s : State) :
    exec (.pop (regByte ra)) s = .next ((s.setReg ra (s.byteAt (s.reg .r7).toNat)).incSp.advance 2) := by
  rw [exec, execPop, withReg_regByte, memRead_toNat]; rfl

theorem exec_nop (s : State) : exec .nop s = .next (s.advance 1) := rfl

theorem exec_hlt (s : State) : exec .hlt s = .next s.halt := rfl

theorem exec_ldi_regByte (ra : Reg) (imm : Byte) (s : State) :
    exec (.ldi (regByte ra) imm) s = .next ((s.setReg ra imm).advance 3) := by
  rw [exec, execLdi, withReg_regByte]; rfl

theorem exec_prn_regByte (ra : Reg) (s : State) :
    exec (.prn (regByte ra)) s = .next ((s.emit (s.reg ra)).advance 2) := by
  rw [exec, execPrn, withReg_regByte]; rfl

/-- Executing a reserved instruction is taking InvalidOpcode with its byte. -/
theorem exec_reserved {i : Instr} (h : i.opcode.implemented = false) (s : State) :
    exec i s = .next (raise (.invalidOpcode (opcodeByte i.opcode)) s) := by
  cases i <;> first | rfl | exact Bool.noConfusion h

/-- The dispatcher recovers every opcode from its byte. -/
theorem decodeOpcode_opcodeByte (o : Opcode) : decodeOpcode (opcodeByte o) = some o := by
  cases o <;> rfl

/-- A byte is dispatched to an opcode only when it is that opcode's byte. -/
theorem eq_opcodeByte_of_decodeOpcode {b : Byte} {o : Opcode} (h : decodeOpcode b = some o) : b = opcodeByte o := by
  have := List.find?_some h
  exact (by simpa using this : opcodeByte o = b).symm

/-- What the decoder finds in the bytes after the opcode byte is an instruction of that opcode. -/
theorem buildInstr_opcode {o : Opcode} {bs rest : List Byte} {i : Instr} (h : buildInstr o bs = .ok (i, rest)) :
    i.opcode = o := by
  cases o <;> rcases bs with _ | ⟨a, _ | ⟨b, tl⟩⟩ <;>
    simp only [buildInstr, takeOne, takeTwo, spellOne, spellTwo, Except.ok.injEq, Prod.mk.injEq, reduceCtorEq] at h <;>
    (obtain ⟨rfl, -⟩ := h; rfl)

theorem bytesFrom_zero (s : State) (a : Nat) : bytesFrom s a 0 = [] := rfl

theorem bytesFrom_succ (s : State) (a n : Nat) :
    bytesFrom s a (n + 1) = if a > 255 then [] else s.byteAt a :: bytesFrom s (a + 1) n := rfl

/-- Everything a step can do. -/
theorem step_eq (s : State) :
    step s = if s.run = .running then
        match fetchInstr s with
        | .ok i => exec i s
        | .error c => .next (raise c s)
      else .next s := by
  unfold step
  cases h : s.run <;> simp
  all_goals (cases fetchInstr s <;> rfl)

/-- A running core whose fetch answers an instruction executes it. -/
theorem step_of_fetch_ok {s : State} {i : Instr} (hr : s.run = .running) (h : fetchInstr s = .ok i) :
    step s = exec i s := by
  rw [step_eq, if_pos hr, h]

/-- A running core whose fetch raises takes that fault. -/
theorem step_of_fetch_error {s : State} {c : FaultCause} (hr : s.run = .running) (h : fetchInstr s = .error c) :
    step s = .next (raise c s) := by
  rw [step_eq, if_pos hr, h]

/-- The fetch of a named opcode inside memory: the decoder on the bytes after it. -/
theorem fetchInstr_of_opcode {s : State} {o : Opcode} (hpc : s.pc.toNat ≤ 255)
    (hb : s.byteAt s.pc.toNat = opcodeByte o) :
    fetchInstr s =
      match buildInstr o (bytesFrom s (s.pc.toNat + 1) (operandCount (opcodeByte o))) with
      | .ok (i, _) => .ok i
      | .error e => .error (decodeFault s.pc.toNat e) := by
  unfold fetchInstr
  rw [memRead, if_neg (by omega), hb]
  simp only [decodeFrom, decodeOpcode_opcodeByte]
  all_goals rfl

end Sys2Proof.Machine
end

