-- ==== Sys2Proof/Laws/Effect.lean ====
section
/-! SUPPORT. What an instruction can do, said once: `Effect` is its completion, and everything else is a raise. -/

namespace Sys2Proof.Machine

/-- The completion of an instruction: its operands name registers and `t` is the state its write phase computes. A
reserved instruction has none. -/
def Effect (i : Instr) (s t : State) : Prop :=
  match i with
  | .nop => t = s.advance 1
  | .hlt => t = s.halt
  | .ret => t = (s.jumpTo (s.byteAt (s.reg .r7).toNat)).incSp
  | .push a => ∃ ra, a = regByte ra ∧ t = (s.decSp.setByte (s.decSp.reg .r7).toNat (s.decSp.reg ra)).advance 2
  | .pop a => ∃ ra, a = regByte ra ∧ t = (s.setReg ra (s.byteAt (s.reg .r7).toNat)).incSp.advance 2
  | .prn a => ∃ ra, a = regByte ra ∧ t = (s.emit (s.reg ra)).advance 2
  | .call a => ∃ ra, a = regByte ra ∧ s.pc.toNat + 2 ≤ 255
      ∧ t = (s.decSp.setByte (s.decSp.reg .r7).toNat (BitVec.ofNat 8 (s.pc.toNat + 2))).jumpTo (s.decSp.reg ra)
  | .jmp a => ∃ ra, a = regByte ra ∧ t = s.jumpTo (s.reg ra)
  | .jeq a => ∃ ra, a = regByte ra ∧ t = if s.equalFlag then s.jumpTo (s.reg ra) else s.advance 2
  | .jne a => ∃ ra, a = regByte ra ∧ t = if s.equalFlag then s.advance 2 else s.jumpTo (s.reg ra)
  | .inc a => ∃ ra, a = regByte ra ∧ t = (s.setReg ra (aluInc (s.reg ra))).advance 2
  | .dec a => ∃ ra, a = regByte ra ∧ t = (s.setReg ra (aluDec (s.reg ra))).advance 2
  | .not a => ∃ ra, a = regByte ra ∧ t = (s.setReg ra (aluNot (s.reg ra))).advance 2
  | .ldi a imm => ∃ ra, a = regByte ra ∧ t = (s.setReg ra imm).advance 3
  | .add a b => ∃ ra rb, a = regByte ra ∧ b = regByte rb ∧ t = (s.setReg ra (aluAdd (s.reg ra) (s.reg rb))).advance 3
  | .sub a b => ∃ ra rb, a = regByte ra ∧ b = regByte rb ∧ t = (s.setReg ra (aluSub (s.reg ra) (s.reg rb))).advance 3
  | .mul a b => ∃ ra rb, a = regByte ra ∧ b = regByte rb ∧ t = (s.setReg ra (aluMul (s.reg ra) (s.reg rb))).advance 3
  | .div a b => ∃ ra rb, a = regByte ra ∧ b = regByte rb ∧ s.reg rb ≠ 0
      ∧ t = (s.setReg ra (aluDiv (s.reg ra) (s.reg rb))).advance 3
  | .mod a b => ∃ ra rb, a = regByte ra ∧ b = regByte rb ∧ s.reg rb ≠ 0
      ∧ t = (s.setReg ra (aluMod (s.reg ra) (s.reg rb))).advance 3
  | .cmp a b => ∃ ra rb, a = regByte ra ∧ b = regByte rb ∧ t = (s.setFl (compareFlags (s.reg ra) (s.reg rb))).advance 3
  | .and a b => ∃ ra rb, a = regByte ra ∧ b = regByte rb ∧ t = (s.setReg ra (aluAnd (s.reg ra) (s.reg rb))).advance 3
  | .or a b => ∃ ra rb, a = regByte ra ∧ b = regByte rb ∧ t = (s.setReg ra (aluOr (s.reg ra) (s.reg rb))).advance 3
  | .xor a b => ∃ ra rb, a = regByte ra ∧ b = regByte rb ∧ t = (s.setReg ra (aluXor (s.reg ra) (s.reg rb))).advance 3
  | .shl a b => ∃ ra rb, a = regByte ra ∧ b = regByte rb ∧ t = (s.setReg ra (aluShl (s.reg ra) (s.reg rb))).advance 3
  | .shr a b => ∃ ra rb, a = regByte ra ∧ b = regByte rb ∧ t = (s.setReg ra (aluShr (s.reg ra) (s.reg rb))).advance 3
  | .iret => False
  | .pra _ => False
  | .int _ => False
  | .jgt _ => False
  | .jlt _ => False
  | .jle _ => False
  | .jge _ => False
  | .ld _ _ => False
  | .st _ _ => False

/-- A register operand of a meaning of one operand, or the raise of a bad one. -/
theorem exec_operand_cases (a : Byte) (s : State) {m : Byte → State → Host.Outcome State Fault Refusal}
    (hbad : 7 < a.toNat → m a s = .next (raise (.addressOutOfRange .reg a.toNat) s)) {t : State}
    (h : m a s = .next t) : (∃ ra, a = regByte ra) ∨ ∃ c, t = raise c s := by
  rcases ridx_cases a with ⟨r, hr, -⟩ | ⟨hgt, -⟩
  · exact .inl ⟨r, hr⟩
  · rw [hbad hgt] at h; exact .inr ⟨_, (Host.Outcome.next.inj h).symm⟩

/-- The register operands of a meaning of two operands, or the raise of a bad one. -/
theorem exec_operands_cases (a b : Byte) (s : State) {m : Byte → Byte → State → Host.Outcome State Fault Refusal}
    (hleft : 7 < a.toNat → m a b s = .next (raise (.addressOutOfRange .reg a.toNat) s))
    (hright : ∀ r, a = regByte r → 7 < b.toNat → m a b s = .next (raise (.addressOutOfRange .reg b.toNat) s))
    {t : State} (h : m a b s = .next t) :
    (∃ ra rb, a = regByte ra ∧ b = regByte rb) ∨ ∃ c, t = raise c s := by
  rcases ridx_cases a with ⟨r, hr, -⟩ | ⟨hgt, -⟩
  · rcases ridx_cases b with ⟨q, hq, -⟩ | ⟨hgt, -⟩
    · exact .inl ⟨r, q, hr, hq⟩
    · rw [hright r hr hgt] at h; exact .inr ⟨_, (Host.Outcome.next.inj h).symm⟩
  · rw [hleft hgt] at h; exact .inr ⟨_, (Host.Outcome.next.inj h).symm⟩

/-- EVERYTHING AN INSTRUCTION CAN DO: it completes with its effect, or takes a fault in the state it began in. -/
theorem exec_next {i : Instr} {s t : State} (h : exec i s = .next t) : Effect i s t ∨ ∃ c, t = raise c s := by
  cases i with
  | nop =>
    exact .inl (Host.Outcome.next.inj h).symm
  | hlt =>
    exact .inl (Host.Outcome.next.inj h).symm
  | ret =>
    rw [exec_ret] at h; exact .inl (Host.Outcome.next.inj h).symm
  | push a =>
    rcases exec_operand_cases (m := execPush) a s (fun hg => withReg_of_gt hg s _) h with ⟨ra, rfl⟩ | hc
    · rw [exec_push_regByte] at h
      exact .inl ⟨ra, rfl, (Host.Outcome.next.inj h).symm⟩
    · exact .inr hc
  | pop a =>
    rcases exec_operand_cases (m := execPop) a s (fun hg => withReg_of_gt hg s _) h with ⟨ra, rfl⟩ | hc
    · rw [exec_pop_regByte] at h
      exact .inl ⟨ra, rfl, (Host.Outcome.next.inj h).symm⟩
    · exact .inr hc
  | prn a =>
    rcases exec_operand_cases (m := execPrn) a s (fun hg => withReg_of_gt hg s _) h with ⟨ra, rfl⟩ | hc
    · rw [exec_prn_regByte] at h
      exact .inl ⟨ra, rfl, (Host.Outcome.next.inj h).symm⟩
    · exact .inr hc
  | call a =>
    rcases exec_operand_cases (m := execCall) a s (fun hg => withReg_of_gt hg s _) h with ⟨ra, rfl⟩ | hc
    · rw [exec_call_regByte] at h
      split at h
      · exact .inr ⟨_, (Host.Outcome.next.inj h).symm⟩
      · exact .inl ⟨ra, rfl, by omega, (Host.Outcome.next.inj h).symm⟩
    · exact .inr hc
  | jmp a =>
    rcases exec_operand_cases (m := execJmp) a s (fun hg => withReg_of_gt hg s _) h with ⟨ra, rfl⟩ | hc
    · rw [exec_jmp_regByte] at h
      exact .inl ⟨ra, rfl, (Host.Outcome.next.inj h).symm⟩
    · exact .inr hc
  | jeq a =>
    rcases exec_operand_cases (m := execJeq) a s (fun hg => withReg_of_gt hg s _) h with ⟨ra, rfl⟩ | hc
    · rw [exec_jeq_regByte] at h
      exact .inl ⟨ra, rfl, (Host.Outcome.next.inj h).symm⟩
    · exact .inr hc
  | jne a =>
    rcases exec_operand_cases (m := execJne) a s (fun hg => withReg_of_gt hg s _) h with ⟨ra, rfl⟩ | hc
    · rw [exec_jne_regByte] at h
      exact .inl ⟨ra, rfl, (Host.Outcome.next.inj h).symm⟩
    · exact .inr hc
  | inc a =>
    rcases exec_operand_cases (m := execInc) a s (fun hg => withReg_of_gt hg s _) h with ⟨ra, rfl⟩ | hc
    · rw [exec_inc_regByte] at h
      exact .inl ⟨ra, rfl, (Host.Outcome.next.inj h).symm⟩
    · exact .inr hc
  | dec a =>
    rcases exec_operand_cases (m := execDec) a s (fun hg => withReg_of_gt hg s _) h with ⟨ra, rfl⟩ | hc
    · rw [exec_dec_regByte] at h
      exact .inl ⟨ra, rfl, (Host.Outcome.next.inj h).symm⟩
    · exact .inr hc
  | not a =>
    rcases exec_operand_cases (m := execNot) a s (fun hg => withReg_of_gt hg s _) h with ⟨ra, rfl⟩ | hc
    · rw [exec_not_regByte] at h
      exact .inl ⟨ra, rfl, (Host.Outcome.next.inj h).symm⟩
    · exact .inr hc
  | ldi a imm =>
    rcases exec_operand_cases (m := fun a s => execLdi a imm s) a s (fun hg => withReg_of_gt hg s _) h with ⟨ra, rfl⟩ | hc
    · rw [exec_ldi_regByte] at h
      exact .inl ⟨ra, rfl, (Host.Outcome.next.inj h).symm⟩
    · exact .inr hc
  | add a b =>
    rcases exec_operands_cases (m := execAdd) a b s (fun hg => withRegs_of_gt_left hg b s _)
      (fun r hr hg => by subst hr; exact withRegs_of_gt_right r hg s _) h with ⟨ra, rb, rfl, rfl⟩ | hc
    · rw [exec_add_regByte] at h
      exact .inl ⟨ra, rb, rfl, rfl, (Host.Outcome.next.inj h).symm⟩
    · exact .inr hc
  | sub a b =>
    rcases exec_operands_cases (m := execSub) a b s (fun hg => withRegs_of_gt_left hg b s _)
      (fun r hr hg => by subst hr; exact withRegs_of_gt_right r hg s _) h with ⟨ra, rb, rfl, rfl⟩ | hc
    · rw [exec_sub_regByte] at h
      exact .inl ⟨ra, rb, rfl, rfl, (Host.Outcome.next.inj h).symm⟩
    · exact .inr hc
  | mul a b =>
    rcases exec_operands_cases (m := execMul) a b s (fun hg => withRegs_of_gt_left hg b s _)
      (fun r hr hg => by subst hr; exact withRegs_of_gt_right r hg s _) h with ⟨ra, rb, rfl, rfl⟩ | hc
    · rw [exec_mul_regByte] at h
      exact .inl ⟨ra, rb, rfl, rfl, (Host.Outcome.next.inj h).symm⟩
    · exact .inr hc
  | div a b =>
    rcases exec_operands_cases (m := execDiv) a b s (fun hg => withRegs_of_gt_left hg b s _)
      (fun r hr hg => by subst hr; exact withRegs_of_gt_right r hg s _) h with ⟨ra, rb, rfl, rfl⟩ | hc
    · rw [exec_div_regByte] at h
      split at h
      · exact .inr ⟨_, (Host.Outcome.next.inj h).symm⟩
      · exact .inl ⟨ra, rb, rfl, rfl, ‹_›, (Host.Outcome.next.inj h).symm⟩
    · exact .inr hc
  | mod a b =>
    rcases exec_operands_cases (m := execMod) a b s (fun hg => withRegs_of_gt_left hg b s _)
      (fun r hr hg => by subst hr; exact withRegs_of_gt_right r hg s _) h with ⟨ra, rb, rfl, rfl⟩ | hc
    · rw [exec_mod_regByte] at h
      split at h
      · exact .inr ⟨_, (Host.Outcome.next.inj h).symm⟩
      · exact .inl ⟨ra, rb, rfl, rfl, ‹_›, (Host.Outcome.next.inj h).symm⟩
    · exact .inr hc
  | cmp a b =>
    rcases exec_operands_cases (m := execCmp) a b s (fun hg => withRegs_of_gt_left hg b s _)
      (fun r hr hg => by subst hr; exact withRegs_of_gt_right r hg s _) h with ⟨ra, rb, rfl, rfl⟩ | hc
    · rw [exec_cmp_regByte] at h
      exact .inl ⟨ra, rb, rfl, rfl, (Host.Outcome.next.inj h).symm⟩
    · exact .inr hc
  | and a b =>
    rcases exec_operands_cases (m := execAnd) a b s (fun hg => withRegs_of_gt_left hg b s _)
      (fun r hr hg => by subst hr; exact withRegs_of_gt_right r hg s _) h with ⟨ra, rb, rfl, rfl⟩ | hc
    · rw [exec_and_regByte] at h
      exact .inl ⟨ra, rb, rfl, rfl, (Host.Outcome.next.inj h).symm⟩
    · exact .inr hc
  | or a b =>
    rcases exec_operands_cases (m := execOr) a b s (fun hg => withRegs_of_gt_left hg b s _)
      (fun r hr hg => by subst hr; exact withRegs_of_gt_right r hg s _) h with ⟨ra, rb, rfl, rfl⟩ | hc
    · rw [exec_or_regByte] at h
      exact .inl ⟨ra, rb, rfl, rfl, (Host.Outcome.next.inj h).symm⟩
    · exact .inr hc
  | xor a b =>
    rcases exec_operands_cases (m := execXor) a b s (fun hg => withRegs_of_gt_left hg b s _)
      (fun r hr hg => by subst hr; exact withRegs_of_gt_right r hg s _) h with ⟨ra, rb, rfl, rfl⟩ | hc
    · rw [exec_xor_regByte] at h
      exact .inl ⟨ra, rb, rfl, rfl, (Host.Outcome.next.inj h).symm⟩
    · exact .inr hc
  | shl a b =>
    rcases exec_operands_cases (m := execShl) a b s (fun hg => withRegs_of_gt_left hg b s _)
      (fun r hr hg => by subst hr; exact withRegs_of_gt_right r hg s _) h with ⟨ra, rb, rfl, rfl⟩ | hc
    · rw [exec_shl_regByte] at h
      exact .inl ⟨ra, rb, rfl, rfl, (Host.Outcome.next.inj h).symm⟩
    · exact .inr hc
  | shr a b =>
    rcases exec_operands_cases (m := execShr) a b s (fun hg => withRegs_of_gt_left hg b s _)
      (fun r hr hg => by subst hr; exact withRegs_of_gt_right r hg s _) h with ⟨ra, rb, rfl, rfl⟩ | hc
    · rw [exec_shr_regByte] at h
      exact .inl ⟨ra, rb, rfl, rfl, (Host.Outcome.next.inj h).symm⟩
    · exact .inr hc
  | iret =>
    exact .inr ⟨_, (Host.Outcome.next.inj h).symm⟩
  | pra a =>
    exact .inr ⟨_, (Host.Outcome.next.inj h).symm⟩
  | int a =>
    exact .inr ⟨_, (Host.Outcome.next.inj h).symm⟩
  | jgt a =>
    exact .inr ⟨_, (Host.Outcome.next.inj h).symm⟩
  | jlt a =>
    exact .inr ⟨_, (Host.Outcome.next.inj h).symm⟩
  | jle a =>
    exact .inr ⟨_, (Host.Outcome.next.inj h).symm⟩
  | jge a =>
    exact .inr ⟨_, (Host.Outcome.next.inj h).symm⟩
  | ld a b =>
    exact .inr ⟨_, (Host.Outcome.next.inj h).symm⟩
  | st a b =>
    exact .inr ⟨_, (Host.Outcome.next.inj h).symm⟩

/-- Every instruction has a next state in every state. -/
theorem exec_total (i : Instr) (s : State) : ∃ t, exec i s = .next t := by
  have hc : ∀ r : Check State, ∃ t, conclude s r = .next t := by
    intro r; cases r <;> exact ⟨_, rfl⟩
  cases i <;> first | exact hc _ | exact ⟨_, rfl⟩

end Sys2Proof.Machine
end

