-- ==== Sys2Proof/Laws/PerInstr.lean ====
section
/-! SUPPORT. The family OpcodeRecovered: an instruction's encoding begins with its opcode byte, from which the
dispatcher recovers its opcode (30_encoding.md R84, R89(e), R94). -/

namespace Sys2Proof.Laws

/-- The encoding begins with the opcode byte and the dispatcher reads the opcode back from it. -/
def OpcodeRecovered.Statement (i : Instr) : Prop :=
  (encode i).head? = some (opcodeByte i.opcode) ∧ decodeOpcode (opcodeByte i.opcode) = some i.opcode

theorem OpcodeRecovered.nop : OpcodeRecovered.Statement .nop := ⟨rfl, rfl⟩
theorem OpcodeRecovered.hlt : OpcodeRecovered.Statement .hlt := ⟨rfl, rfl⟩
theorem OpcodeRecovered.ret : OpcodeRecovered.Statement .ret := ⟨rfl, rfl⟩
theorem OpcodeRecovered.push (a : Byte) : OpcodeRecovered.Statement (.push a) := ⟨rfl, rfl⟩
theorem OpcodeRecovered.pop (a : Byte) : OpcodeRecovered.Statement (.pop a) := ⟨rfl, rfl⟩
theorem OpcodeRecovered.prn (a : Byte) : OpcodeRecovered.Statement (.prn a) := ⟨rfl, rfl⟩
theorem OpcodeRecovered.call (a : Byte) : OpcodeRecovered.Statement (.call a) := ⟨rfl, rfl⟩
theorem OpcodeRecovered.jmp (a : Byte) : OpcodeRecovered.Statement (.jmp a) := ⟨rfl, rfl⟩
theorem OpcodeRecovered.jeq (a : Byte) : OpcodeRecovered.Statement (.jeq a) := ⟨rfl, rfl⟩
theorem OpcodeRecovered.jne (a : Byte) : OpcodeRecovered.Statement (.jne a) := ⟨rfl, rfl⟩
theorem OpcodeRecovered.inc (a : Byte) : OpcodeRecovered.Statement (.inc a) := ⟨rfl, rfl⟩
theorem OpcodeRecovered.dec (a : Byte) : OpcodeRecovered.Statement (.dec a) := ⟨rfl, rfl⟩
theorem OpcodeRecovered.not (a : Byte) : OpcodeRecovered.Statement (.not a) := ⟨rfl, rfl⟩
theorem OpcodeRecovered.ldi (a imm : Byte) : OpcodeRecovered.Statement (.ldi a imm) := ⟨rfl, rfl⟩
theorem OpcodeRecovered.add (a b : Byte) : OpcodeRecovered.Statement (.add a b) := ⟨rfl, rfl⟩
theorem OpcodeRecovered.sub (a b : Byte) : OpcodeRecovered.Statement (.sub a b) := ⟨rfl, rfl⟩
theorem OpcodeRecovered.mul (a b : Byte) : OpcodeRecovered.Statement (.mul a b) := ⟨rfl, rfl⟩
theorem OpcodeRecovered.div (a b : Byte) : OpcodeRecovered.Statement (.div a b) := ⟨rfl, rfl⟩
theorem OpcodeRecovered.mod (a b : Byte) : OpcodeRecovered.Statement (.mod a b) := ⟨rfl, rfl⟩
theorem OpcodeRecovered.cmp (a b : Byte) : OpcodeRecovered.Statement (.cmp a b) := ⟨rfl, rfl⟩
theorem OpcodeRecovered.and (a b : Byte) : OpcodeRecovered.Statement (.and a b) := ⟨rfl, rfl⟩
theorem OpcodeRecovered.or (a b : Byte) : OpcodeRecovered.Statement (.or a b) := ⟨rfl, rfl⟩
theorem OpcodeRecovered.xor (a b : Byte) : OpcodeRecovered.Statement (.xor a b) := ⟨rfl, rfl⟩
theorem OpcodeRecovered.shl (a b : Byte) : OpcodeRecovered.Statement (.shl a b) := ⟨rfl, rfl⟩
theorem OpcodeRecovered.shr (a b : Byte) : OpcodeRecovered.Statement (.shr a b) := ⟨rfl, rfl⟩
theorem OpcodeRecovered.iret : OpcodeRecovered.Statement .iret := ⟨rfl, rfl⟩
theorem OpcodeRecovered.pra (a : Byte) : OpcodeRecovered.Statement (.pra a) := ⟨rfl, rfl⟩
theorem OpcodeRecovered.int (a : Byte) : OpcodeRecovered.Statement (.int a) := ⟨rfl, rfl⟩
theorem OpcodeRecovered.jgt (a : Byte) : OpcodeRecovered.Statement (.jgt a) := ⟨rfl, rfl⟩
theorem OpcodeRecovered.jlt (a : Byte) : OpcodeRecovered.Statement (.jlt a) := ⟨rfl, rfl⟩
theorem OpcodeRecovered.jle (a : Byte) : OpcodeRecovered.Statement (.jle a) := ⟨rfl, rfl⟩
theorem OpcodeRecovered.jge (a : Byte) : OpcodeRecovered.Statement (.jge a) := ⟨rfl, rfl⟩
theorem OpcodeRecovered.ld (a b : Byte) : OpcodeRecovered.Statement (.ld a b) := ⟨rfl, rfl⟩
theorem OpcodeRecovered.st (a b : Byte) : OpcodeRecovered.Statement (.st a b) := ⟨rfl, rfl⟩

end Sys2Proof.Laws
end

