-- ==== Sys2Proof/Laws/Step.lean ====
section
/-! SUPPORT. The fetch and the step, said once: what the instruction that a fetch answers is, which fault a fetch
raises, and everything a step can do. -/

namespace Sys2Proof.Machine

/-- The operand bytes the decoder asks for are as many as the instruction has. -/
theorem operandCount_opcodeByte (i : Instr) : operandCount (opcodeByte i.opcode) = i.operands.length := by
  cases i <;> simp only [Instr.opcode, Instr.operands, List.length_cons, List.length_nil] <;> decide

/-- The decoder asks for as many operand bytes as the opcode has (30_encoding.md R89(b)). -/
theorem operandCount_eq_arity (o : Opcode) : operandCount (opcodeByte o) = o.arity := by
  cases o <;> decide

/-- A byte is dispatched or undefined. -/
theorem fetchInstr_of_undefined {s : State} (hpc : s.pc.toNat ≤ 255) (hb : decodeOpcode (s.byteAt s.pc.toNat) = none) :
    fetchInstr s = .error (.invalidOpcode (s.byteAt s.pc.toNat)) := by
  unfold fetchInstr
  rw [memRead, if_neg (by omega)]
  simp only [decodeFrom, hb, decodeFault]

theorem fetchInstr_of_high {s : State} (hpc : 255 < s.pc.toNat) :
    fetchInstr s = .error (.addressOutOfRange .mem s.pc.toNat) := by
  unfold fetchInstr
  rw [memRead, if_pos (by omega)]

/-- Everything an answered fetch says of the instruction: its opcode byte is at pc, and the operand bytes of an
implemented opcode are the bytes after it, all inside memory. -/
theorem fetchInstr_ok {s : State} {i : Instr} (h : fetchInstr s = .ok i) :
    s.pc.toNat ≤ 255 ∧ s.byteAt s.pc.toNat = opcodeByte i.opcode ∧
      (i.opcode.implemented = true → s.pc.toNat + i.operands.length ≤ 255 ∧
        i.operands = (List.range i.operands.length).map fun k => s.byteAt (s.pc.toNat + 1 + k)) := by
  by_cases hpc : s.pc.toNat ≤ 255
  swap
  · rw [fetchInstr_of_high (by omega)] at h; cases h
  cases ho : decodeOpcode (s.byteAt s.pc.toNat) with
  | none => rw [fetchInstr_of_undefined hpc ho] at h; cases h
  | some o =>
    have hb := eq_opcodeByte_of_decodeOpcode ho
    rw [fetchInstr_of_opcode hpc hb] at h
    split at h
    swap
    · cases h
    rename_i j rest hbuild
    cases h
    have hop := buildInstr_opcode hbuild
    refine ⟨hpc, by rw [hop]; exact hb, fun himp => ?_⟩
    subst hop
    rw [operandCount_opcodeByte] at hbuild
    cases i <;>
      simp only [Instr.opcode, Instr.operands, List.length_cons, List.length_nil, Nat.zero_add, Nat.reduceAdd,
        bytesFrom_zero, bytesFrom_succ, Opcode.implemented, Bool.false_eq_true] at hbuild himp ⊢ <;>
      first
      | exact ⟨hpc, rfl⟩
      | (split at hbuild <;> simp only [buildInstr, takeOne, reduceCtorEq, Except.ok.injEq, Prod.mk.injEq] at hbuild
         obtain ⟨h1, -⟩ := hbuild
         cases h1
         exact ⟨by omega, rfl⟩)
      | (split at hbuild
         · simp only [buildInstr, takeTwo, reduceCtorEq] at hbuild
         split at hbuild <;> simp only [buildInstr, takeTwo, reduceCtorEq, Except.ok.injEq, Prod.mk.injEq] at hbuild
         obtain ⟨h1, -⟩ := hbuild
         cases h1
         exact ⟨by omega, rfl⟩)

/-- Everything a refused fetch can raise: no opcode byte, an undefined opcode byte, or an operand byte of an
implemented opcode that lies outside memory, which is always the address 256. -/
theorem fetchInstr_error {s : State} {c : FaultCause} (h : fetchInstr s = .error c) :
    (255 < s.pc.toNat ∧ c = .addressOutOfRange .mem s.pc.toNat)
    ∨ (s.pc.toNat ≤ 255 ∧ decodeOpcode (s.byteAt s.pc.toNat) = none ∧ c = .invalidOpcode (s.byteAt s.pc.toNat))
    ∨ (s.pc.toNat ≤ 255 ∧ ∃ o : Opcode, o.implemented = true ∧ s.byteAt s.pc.toNat = opcodeByte o
        ∧ 255 < s.pc.toNat + operandCount (opcodeByte o) ∧ c = .addressOutOfRange .mem 256) := by
  by_cases hpc : s.pc.toNat ≤ 255
  swap
  · rw [fetchInstr_of_high (by omega)] at h; cases h; exact .inl ⟨by omega, rfl⟩
  cases ho : decodeOpcode (s.byteAt s.pc.toNat) with
  | none => rw [fetchInstr_of_undefined hpc ho] at h; cases h; exact .inr (.inl ⟨hpc, rfl, rfl⟩)
  | some o =>
    have hb := eq_opcodeByte_of_decodeOpcode ho
    rw [fetchInstr_of_opcode hpc hb] at h
    refine .inr (.inr ⟨hpc, o, ?_⟩)
    split at h
    · cases h
    rename_i e hbuild
    cases h
    rw [operandCount_eq_arity] at hbuild ⊢
    cases o <;>
      simp only [Opcode.arity, bytesFrom_zero, bytesFrom_succ] at hbuild ⊢ <;>
      first
      | (cases hbuild)
      | (split at hbuild <;> simp only [buildInstr, takeOne, spellOne, reduceCtorEq, Except.error.injEq] at hbuild
         subst hbuild
         refine ⟨rfl, hb, by omega, ?_⟩
         simp only [decodeFault]; congr 1; omega)
      | (split at hbuild
         · simp only [buildInstr, takeTwo, spellTwo, reduceCtorEq, Except.error.injEq] at hbuild
           subst hbuild
           refine ⟨rfl, hb, by omega, ?_⟩
           simp only [decodeFault]; congr 1; omega
         · split at hbuild <;> simp only [buildInstr, takeTwo, reduceCtorEq, Except.error.injEq] at hbuild
           subst hbuild
           refine ⟨rfl, hb, by omega, ?_⟩
           simp only [decodeFault]; congr 1; omega)
      | (repeat' split at hbuild) <;> simp [buildInstr, spellTwo, spellOne] at hbuild

/-- EVERYTHING A STEP CAN DO: nothing in a terminal state; in a running one, the effect of the fetched
instruction, or a raise. -/
theorem step_next {s t : State} (h : step s = .next t) :
    (s.run ≠ .running ∧ t = s)
    ∨ (s.run = .running ∧ ∃ i, fetchInstr s = .ok i ∧ exec i s = .next t ∧ Effect i s t)
    ∨ (s.run = .running ∧ ∃ c, t = raise c s) := by
  by_cases hr : s.run = .running
  · cases hf : fetchInstr s with
    | error c =>
      rw [step_of_fetch_error hr hf] at h
      exact .inr (.inr ⟨hr, c, (Host.Outcome.next.inj h).symm⟩)
    | ok i =>
      rw [step_of_fetch_ok hr hf] at h
      rcases exec_next h with he | hc
      · exact .inr (.inl ⟨hr, i, rfl, h, he⟩)
      · exact .inr (.inr ⟨hr, hc⟩)
  · rw [step_eq, if_neg hr] at h
    exact .inl ⟨hr, (Host.Outcome.next.inj h).symm⟩

end Sys2Proof.Machine
end

