-- ==== Sys2Proof/Tests/Slice0.lean ====
section
/-! SUPPORT. Tests: ill-formed terms that WellFormed refuses; a word of every constructor, written out from
30_encoding.md R86 to R88, that the decoder reads; single steps with the values of 95_test_vectors.md (the vector's
name stands in each docstring); and, for every obligation with hypotheses, states and operands that meet them. -/

namespace Sys2Proof.Tests

open Sys2Proof Sys2Proof.Machine

/-! ## Well-formedness: one ill-formed term per check -/

/-- Format R: the register operand is 8 or more. -/
theorem test_wf_refuses_R :
    [Instr.push 8, .pop 9, .prn 16, .call 0x80, .jmp 0xFF, .jeq 8, .jne 8, .inc 8, .dec 8, .not 8].all
      (fun i => !i.wf) = true := by decide

/-- Format RI: the register operand is 8; the immediate is never checked. -/
theorem test_wf_refuses_RI : (Instr.ldi 8 0).wf = false ∧ (Instr.ldi 7 0xFF).wf = true := by decide

/-- Format RR: opA is 8. -/
theorem test_wf_refuses_RR_opA :
    [Instr.add 8 0, .sub 8 0, .mul 8 0, .div 8 0, .mod 8 0, .cmp 8 0, .and 8 0, .or 8 0, .xor 8 0, .shl 8 0,
      .shr 8 0].all (fun i => !i.wf) = true := by decide

/-- Format RR: opB is 8. -/
theorem test_wf_refuses_RR_opB :
    [Instr.add 0 8, .sub 0 8, .mul 0 8, .div 0 8, .mod 0 8, .cmp 0 8, .and 0 8, .or 0 8, .xor 0 8, .shl 0 8,
      .shr 0 8].all (fun i => !i.wf) = true := by decide

/-- A map that changes the byte of one opcode. -/
def changed (o : Opcode) (b : Byte) : Opcode → Byte := fun p => if p = o then b else opcodeByte p

/-- An attested byte changed; a length bit, the ALU bit and the jump bit changed; two opcodes with one byte. -/
theorem test_wf_refuses_opcode_maps :
    opcodeMapAttested (changed .hlt 0x02) = false ∧ opcodeMapBits (changed .nop 0x40) = false
      ∧ opcodeMapBits (changed .inc 0x49) = false ∧ opcodeMapBits (changed .jmp 0x44) = false
      ∧ opcodeMapDistinct (changed .sub 0xA0) = false := by decide

/-! ## Decoding: words written out bit by bit from the tables of 30_encoding.md -/

theorem test_decode_nop : decode [0b00000000] = .ok (.nop, []) := rfl
theorem test_decode_hlt : decode [0b00000001] = .ok (.hlt, []) := rfl
theorem test_decode_ret : decode [0b00010001] = .ok (.ret, []) := rfl
theorem test_decode_push : decode [0b01000101, 0b00000011] = .ok (.push 3, []) := rfl
theorem test_decode_pop : decode [0b01000110, 0b00000101] = .ok (.pop 5, []) := rfl
theorem test_decode_prn : decode [0b01000111, 0b00000000] = .ok (.prn 0, []) := rfl
theorem test_decode_call : decode [0b01010000, 0b00000001] = .ok (.call 1, []) := rfl
theorem test_decode_jmp : decode [0b01010100, 0b00000010] = .ok (.jmp 2, []) := rfl
theorem test_decode_jeq : decode [0b01010101, 0b00000110] = .ok (.jeq 6, []) := rfl
theorem test_decode_jne : decode [0b01010110, 0b00000111] = .ok (.jne 7, []) := rfl
theorem test_decode_inc : decode [0b01100101, 0b00000100] = .ok (.inc 4, []) := rfl
theorem test_decode_dec : decode [0b01100110, 0b00000011] = .ok (.dec 3, []) := rfl
theorem test_decode_not : decode [0b01101001, 0b00000010] = .ok (.not 2, []) := rfl
theorem test_decode_ldi : decode [0b10000010, 0b00000000, 0b00001000] = .ok (.ldi 0 8, []) := rfl
theorem test_decode_add : decode [0b10100000, 0b00000000, 0b00000001] = .ok (.add 0 1, []) := rfl
theorem test_decode_sub : decode [0b10100001, 0b00000010, 0b00000011] = .ok (.sub 2 3, []) := rfl
theorem test_decode_mul : decode [0b10100010, 0b00000100, 0b00000101] = .ok (.mul 4 5, []) := rfl
theorem test_decode_div : decode [0b10100011, 0b00000110, 0b00000111] = .ok (.div 6 7, []) := rfl
theorem test_decode_mod : decode [0b10100100, 0b00000111, 0b00000000] = .ok (.mod 7 0, []) := rfl
theorem test_decode_cmp : decode [0b10100111, 0b00000001, 0b00000010] = .ok (.cmp 1 2, []) := rfl
theorem test_decode_and : decode [0b10101000, 0b00000011, 0b00000100] = .ok (.and 3 4, []) := rfl
theorem test_decode_or : decode [0b10101010, 0b00000101, 0b00000110] = .ok (.or 5 6, []) := rfl
theorem test_decode_xor : decode [0b10101011, 0b00000000, 0b00000111] = .ok (.xor 0 7, []) := rfl
theorem test_decode_shl : decode [0b10101100, 0b00000001, 0b00000011] = .ok (.shl 1 3, []) := rfl
theorem test_decode_shr : decode [0b10101101, 0b00000010, 0b00000100] = .ok (.shr 2 4, []) := rfl
theorem test_decode_iret : decode [0b00010011] = .ok (.iret, []) := rfl
theorem test_decode_pra : decode [0b01001000, 0b00000001] = .ok (.pra 1, []) := rfl
theorem test_decode_int : decode [0b01010010, 0b00000010] = .ok (.int 2, []) := rfl
theorem test_decode_jgt : decode [0b01010111, 0b00000011] = .ok (.jgt 3, []) := rfl
theorem test_decode_jlt : decode [0b01011000, 0b00000100] = .ok (.jlt 4, []) := rfl
theorem test_decode_jle : decode [0b01011001, 0b00000101] = .ok (.jle 5, []) := rfl
theorem test_decode_jge : decode [0b01011010, 0b00000110] = .ok (.jge 6, []) := rfl
theorem test_decode_ld : decode [0b10000011, 0b00000000, 0b00000001] = .ok (.ld 0 1, []) := rfl
theorem test_decode_st : decode [0b10000100, 0b00000010, 0b00000011] = .ok (.st 2 3, []) := rfl

/-- Undefined bytes are refused before any operand is looked at (30_encoding.md R94): neighbours of named opcodes,
a byte with top bits 11, and no byte at all. -/
theorem test_decode_refuses :
    decode [0xAE, 0, 1] = .error (.undefinedOpcode 0xAE) ∧ decode [0xC0] = .error (.undefinedOpcode 0xC0)
      ∧ decode [0xA0, 0] = .error (.missingOperand 2) ∧ decode [0x45] = .error (.missingOperand 1)
      ∧ decode [] = .error .noBytes := by decide

/-- The numbering of spec/opcode_table.json: the first byte is bits 7..0 (LDI R0,8 and an undefined byte). -/
theorem test_decodeTableWord :
    decodeTableWord 24 0x080082 = some (.ldi 0 8) ∧ decodeTableWord 8 0x0001 = some .hlt
      ∧ decodeTableWord 8 0xFF = none := by decide

/-! ## Single steps -/

/-- A running core right after reset but for pc, some registers, and bytes placed at pc. -/
def boot (pc : Nat) (rs : List (Reg × Byte)) (bs : List Byte) : State :=
  (rs.foldl (fun (s : State) p => s.setReg p.1 p.2) { State.reset with pc := BitVec.ofNat 9 pc }).withBytes pc bs

/-- The state after one step. -/
def after (s : State) : State :=
  match step s with
  | .next t => t
  | .fault _ => s
  | .refused _ => s

/-- The fault record of the state after one step. -/
def faultAfter (s : State) : Option FaultRecord := (after s).fault

/-- V-RST-1: the reset state, in its numbered fields. -/
theorem test_reset :
    State.reset.reg .r7 = 0xF4 ∧ State.reset.reg .r0 = 0 ∧ State.reset.pc = 0 ∧ State.reset.fl = 0
      ∧ State.reset.run = .running := by decide

/-- V-ALU-1. -/
theorem test_add : (after (boot 0 [(.r0, 8), (.r1, 9)] [0xA0, 0, 1])).reg .r0 = 0x11 := by decide
/-- V-ALU-4: the same register twice. -/
theorem test_add_same : (after (boot 0 [(.r2, 0x80)] [0xA0, 2, 2])).reg .r2 = 0 := by decide
/-- V-ALU-6. -/
theorem test_sub : (after (boot 0 [(.r2, 5), (.r3, 0x0A)] [0xA1, 2, 3])).reg .r2 = 0xFB := by decide
/-- V-ALU-12. -/
theorem test_mul : (after (boot 0 [(.r0, 0xC8), (.r1, 2)] [0xA2, 0, 1])).reg .r0 = 0x90 := by decide
/-- V-ALU-13. -/
theorem test_div : (after (boot 0 [(.r0, 0x64), (.r1, 7)] [0xA3, 0, 1])).reg .r0 = 0x0E := by decide
/-- V-ALU-16. -/
theorem test_div_zero :
    faultAfter (boot 0 [(.r0, 0x64)] [0xA3, 0, 1]) = some { cause := .divisionByZero, fpc := 0 } := by decide
/-- V-ALU-19. -/
theorem test_mod : (after (boot 0 [(.r0, 0x64), (.r1, 7)] [0xA4, 0, 1])).reg .r0 = 2 := by decide
/-- V-ALU-59: a bad register is reported before a zero divisor. -/
theorem test_mod_bad_register :
    faultAfter (boot 0 [] [0xA4, 9, 1]) = some { cause := .addressOutOfRange .reg 9, fpc := 0 } := by decide
/-- V-ALU-24. -/
theorem test_inc_wraps : (after (boot 0 [(.r4, 0xFF)] [0x65, 4])).reg .r4 = 0 := by decide
/-- V-ALU-27. -/
theorem test_dec_wraps : (after (boot 0 [] [0x66, 0])).reg .r0 = 0xFF := by decide
/-- V-ALU-32: the old bit is overwritten. -/
theorem test_cmp_equal :
    (after ((boot 0 [(.r0, 0x0A), (.r1, 0x0A)] [0xA7, 0, 1]).setFl 4)).fl = 1 := by decide
/-- V-ALU-33: the comparison is unsigned. -/
theorem test_cmp_unsigned : (after (boot 0 [(.r0, 0x80), (.r1, 0x7F)] [0xA7, 0, 1])).fl = 2 := by decide
/-- V-ALU-37. -/
theorem test_and : (after (boot 0 [(.r0, 0xCC), (.r1, 0xAA)] [0xA8, 0, 1])).reg .r0 = 0x88 := by decide
/-- V-ALU-38. -/
theorem test_or : (after (boot 0 [(.r0, 0xCC), (.r1, 0xAA)] [0xAA, 0, 1])).reg .r0 = 0xEE := by decide
/-- V-ALU-39. -/
theorem test_xor : (after (boot 0 [(.r0, 0xCC), (.r1, 0xAA)] [0xAB, 0, 1])).reg .r0 = 0x66 := by decide
/-- V-ALU-41: two bytes long. -/
theorem test_not :
    (after (boot 0 [(.r0, 0x0F)] [0x69, 0])).reg .r0 = 0xF0 ∧ (after (boot 0 [] [0x69, 0])).pc = 2 := by decide
/-- V-ALU-44. -/
theorem test_shl : (after (boot 0 [(.r0, 0x81), (.r1, 1)] [0xAC, 0, 1])).reg .r0 = 2 := by decide
/-- V-ALU-49: a count of 9 is not a count of 1. -/
theorem test_shl_nine : (after (boot 0 [(.r0, 1), (.r1, 9)] [0xAC, 0, 1])).reg .r0 = 0 := by decide
/-- V-ALU-51. -/
theorem test_shr : (after (boot 0 [(.r0, 0x81), (.r1, 1)] [0xAD, 0, 1])).reg .r0 = 0x40 := by decide
/-- V-ALU-53. -/
theorem test_shr_eight : (after (boot 0 [(.r0, 0xFF), (.r1, 8)] [0xAD, 0, 1])).reg .r0 = 0 := by decide
/-- V-CF-1. -/
theorem test_jmp : (after (boot 0x10 [(.r2, 0x40)] [0x54, 2])).pc = 0x40 := by decide
/-- V-CF-5. -/
theorem test_jeq_taken : (after ((boot 0x12 [(.r3, 0x16)] [0x55, 3]).setFl 1)).pc = 0x16 := by decide
/-- V-CF-13: not taken at 254, pc becomes 256. -/
theorem test_jeq_not_taken : (after (boot 0xFE [(.r0, 5)] [0x55, 0])).pc = 0x100 := by decide
/-- V-CF-10. -/
theorem test_jne_taken : (after ((boot 0x14 [(.r3, 0x0C)] [0x56, 3]).setFl 4)).pc = 0x0C := by decide
/-- V-CF-15: the operand is checked though the jump would not be taken. -/
theorem test_jne_bad_register :
    faultAfter ((boot 0x12 [] [0x56, 9]).setFl 1) = some { cause := .addressOutOfRange .reg 9, fpc := 0x12 } := by
  decide
/-- V-CF-23: CALL overwrites its own operand byte. -/
theorem test_call_over_operand :
    (after (boot 0x40 [(.r1, 0x80), (.r7, 0x42)] [0x50, 1])).pc = 0x80
      ∧ (after (boot 0x40 [(.r1, 0x80), (.r7, 0x42)] [0x50, 1])).byteAt 0x41 = 0x42 := by decide
/-- V-CF-18: the return address would be 256. -/
theorem test_call_at_254 :
    faultAfter (boot 0xFE [(.r1, 0x30)] [0x50, 1]) = some { cause := .addressOutOfRange .mem 256, fpc := 0xFE } := by
  decide
/-- V-CF-24. -/
theorem test_ret :
    (after ((boot 0x0E [(.r7, 0xF3)] [0x11]).setByte 0xF3 8)).pc = 8
      ∧ (after ((boot 0x0E [(.r7, 0xF3)] [0x11]).setByte 0xF3 8)).reg .r7 = 0xF4 := by decide
/-- V-STK-3: the stack pointer wraps. -/
theorem test_push_wraps :
    (after (boot 0 [(.r0, 0x12), (.r7, 0)] [0x45, 0])).byteAt 0xFF = 0x12
      ∧ (after (boot 0 [(.r0, 0x12), (.r7, 0)] [0x45, 0])).reg .r7 = 0xFF := by decide
/-- V-STK-5: PUSH R7 stores the decremented stack pointer. -/
theorem test_push_sp : (after (boot 0 [] [0x45, 7])).byteAt 0xF3 = 0xF3 := by decide
/-- V-STK-2. -/
theorem test_pop : (after ((boot 0 [(.r7, 0xF3)] [0x46, 1]).setByte 0xF3 0xAA)).reg .r1 = 0xAA := by decide
/-- V-STK-6: POP R7 ends one above the popped value. -/
theorem test_pop_sp : (after ((boot 0 [(.r7, 0xF3)] [0x46, 7]).setByte 0xF3 0x20)).reg .r7 = 0x21 := by decide
/-- V-PLN-2. -/
theorem test_nop_at_top : (after (boot 0xFF [] [0])).pc = 0x100 := by decide
/-- V-PLN-4. -/
theorem test_hlt_at_top : (after (boot 0xFF [] [1])).run = .halted ∧ (after (boot 0xFF [] [1])).pc = 0xFF := by decide
/-- V-PLN-8: the immediate 8 is no register index. -/
theorem test_ldi : (after (boot 0 [(.r0, 0x55)] [0x82, 0, 8])).reg .r0 = 8 := by decide
/-- V-PLN-9. -/
theorem test_ldi_bad_register :
    faultAfter (boot 0 [] [0x82, 8, 0]) = some { cause := .addressOutOfRange .reg 8, fpc := 0 } := by decide
/-- V-PLN-14: the printed value is unsigned. -/
theorem test_prn :
    (after (boot 0 [(.r0, 0xFF)] [0x47, 0])).out = [255]
      ∧ renderOutput (after (boot 0 [(.r0, 0xFF)] [0x47, 0])).out = [['2', '5', '5']] := by decide
/-- V-RSV-10: a reserved opcode at 255 is an invalid opcode, not an address out of range. -/
theorem test_reserved_at_top :
    faultAfter (boot 0xFF [] [0x83]) = some { cause := .invalidOpcode 0x83, fpc := 0xFF } := by decide
/-- V-RSV-1 to V-RSV-9: the nine bytes. -/
theorem test_reserved_bytes :
    ([0x83, 0x84, 0x48, 0x57, 0x58, 0x59, 0x5A, 0x52, 0x13] : List Byte).all
      (fun b => faultAfter (boot 3 [] [b, 0, 1]) == some { cause := .invalidOpcode b, fpc := 3 }) = true := by decide
/-- V-FET-1 and V-ALU-62. -/
theorem test_fetch_past_memory :
    faultAfter (boot 0x100 [] []) = some { cause := .addressOutOfRange .mem 256, fpc := 0x100 }
      ∧ faultAfter (boot 0xFF [] [0xA0]) = some { cause := .addressOutOfRange .mem 256, fpc := 0xFF } := by decide
/-- V-TRM-1 and V-TRM-2. -/
theorem test_terminal :
    step { boot 0x0B [] [1] with run := .halted } = .next { boot 0x0B [] [1] with run := .halted }
      ∧ step (raise .divisionByZero (boot 6 [] [])) = .next (raise .divisionByZero (boot 6 [] [])) := ⟨rfl, rfl⟩
/-- 50_interfaces.md R212: a program of 257 bytes is refused, one of 3 bytes is placed from address 0. -/
theorem test_launch :
    launch [0x82, 0, 8] = .next (boot 0 [] [0x82, 0, 8])
      ∧ launch (List.replicate 257 0) = .refused (.programTooLong 257) :=
  ⟨rfl, by rw [launch, List.length_replicate]; rfl⟩
/-- The word of LDI R0,8 placed for the fetch after reset is what the first step runs. -/
theorem test_withFetchWord : (after (State.reset.withFetchWord 24 0x080082)).reg .r0 = 8 := by decide

/-! ## Witnesses: the hypotheses of each obligation are met -/

theorem witness_ResetStackPointerAndPc : decodeTableWord 16 0x0047 = some (.prn 0) := by decide

theorem witness_LaunchLoadsProgram :
    ([] : List Byte).length ≤ 256 ∧ (List.replicate 256 (1 : Byte)).length ≤ 256
      ∧ 256 < (List.replicate 257 (1 : Byte)).length := by
  simp only [List.length_nil, List.length_replicate]; decide

theorem witness_EncodeDecodeRoundTrip :
    3 ≤ ([0x01, 0xA0, 0xFF] : List Byte).length ∧ decode [0x01, 0xA0, 0xFF] = .ok (.hlt, [0xA0, 0xFF])
      ∧ decode [0x83, 0xFF, 0x09] = .ok (.ld 0xFF 9, []) := by decide

theorem witness_DecoderReadsOneByte : 0xC0 ≤ (0xC0 : Byte).toNat ∧ 0xC0 ≤ (0xFF : Byte).toNat := by decide

/-- The last place of an instruction of 3 bytes and of 1 byte. -/
theorem witness_StepRunsDecodedInstruction :
    (boot 253 [] [0xA0, 0, 1]).run = .running ∧ (boot 253 [] [0xA0, 0, 1]).pc.toNat + 3 ≤ 256
      ∧ decode ((List.range 3).map fun k =>
          (boot 253 [] [0xA0, 0, 1]).byteAt ((boot 253 [] [0xA0, 0, 1]).pc.toNat + k)) = .ok (.add 0 1, [])
      ∧ (boot 255 [] [1]).pc.toNat + 1 ≤ 256
      ∧ decode ((List.range 1).map fun k => (boot 255 [] [1]).byteAt ((boot 255 [] [1]).pc.toNat + k))
          = .ok (.hlt, []) := by decide

theorem witness_OpcodeFetch :
    (boot 255 [] []).run = .running ∧ (boot 255 [] []).pc.toNat ≤ 255
      ∧ (boot 256 [] []).run = .running ∧ 255 < (boot 256 [] []).pc.toNat := by decide

/-- A 2-byte opcode at 255, a 3-byte one at 254, and a 3-byte one at 253, which fits. -/
theorem witness_OperandFetch :
    ((boot 255 [] [0x65]).run = .running ∧ (boot 255 [] [0x65]).pc.toNat = 255 ∧ Opcode.inc.implemented = true
        ∧ (boot 255 [] [0x65]).byteAt 255 = opcodeByte .inc ∧ 2 ≤ (classify (opcodeByte .inc)).length)
      ∧ ((boot 254 [] [0xA0]).pc.toNat = 254 ∧ (boot 254 [] [0xA0]).byteAt 254 = opcodeByte .add
        ∧ (classify (opcodeByte .add)).length = 3)
      ∧ ((boot 253 [] [0xA0]).byteAt 253 = opcodeByte .add
        ∧ (boot 253 [] [0xA0]).pc.toNat + (classify (opcodeByte .add)).length ≤ 256) := by decide

/-- A byte is implemented exactly when some implemented opcode of the list has it. -/
theorem not_implementedByte {b : Byte} (h : Opcode.all.all (fun o => !(o.implemented && opcodeByte o == b)) = true) :
    ¬ ImplementedByte b := by
  rintro ⟨o, ho, rfl⟩
  have hm : o ∈ Opcode.all := by cases o <;> decide
  have := List.all_eq_true.mp h o hm
  simp [ho] at this

/-- An undefined byte at 255 and a reserved one at 0. -/
theorem witness_UnimplementedOpcodeFaults :
    ((boot 255 [] [0xFF]).run = .running ∧ (boot 255 [] [0xFF]).pc.toNat ≤ 255
      ∧ ¬ ImplementedByte ((boot 255 [] [0xFF]).byteAt (boot 255 [] [0xFF]).pc.toNat))
    ∧ ((boot 0 [] [0x83]).run = .running ∧ (boot 0 [] [0x83]).pc.toNat ≤ 255
      ∧ ¬ ImplementedByte ((boot 0 [] [0x83]).byteAt (boot 0 [] [0x83]).pc.toNat)) :=
  ⟨⟨rfl, by decide, not_implementedByte (by decide)⟩, ⟨rfl, by decide, not_implementedByte (by decide)⟩⟩

theorem witness_TerminalStatesAbsorb :
    ({ boot 0 [] [1] with run := .halted } : State).run ≠ .running
      ∧ (raise .divisionByZero (boot 0 [] [])).run ≠ .running := by decide

/-- A step that halts, a step that faults, and a step in a terminal state. -/
theorem witness_RunStateTransitions :
    (step (boot 255 [] [1]) = .next (after (boot 255 [] [1])) ∧ (boot 255 [] [1]).run = .running
        ∧ (after (boot 255 [] [1])).run = .halted)
      ∧ (step (boot 256 [] []) = .next (after (boot 256 [] [])) ∧ (boot 256 [] []).run = .running
        ∧ (after (boot 256 [] [])).run = .faulted)
      ∧ (step (raise .divisionByZero (boot 0 [] [])) = .next (raise .divisionByZero (boot 0 [] []))
        ∧ (raise .divisionByZero (boot 0 [] [])).run ≠ .running) :=
  ⟨⟨rfl, rfl, rfl⟩, ⟨rfl, rfl, rfl⟩, rfl, by decide⟩

theorem witness_FaultRecordWrittenOnce :
    step (boot 0 [] [0xA3, 0, 1]) = .next (after (boot 0 [] [0xA3, 0, 1]))
      ∧ (after (boot 0 [] [0xA3, 0, 1])).fault ≠ (boot 0 [] [0xA3, 0, 1]).fault := ⟨rfl, by decide⟩

theorem witness_FaultsArePrecise :
    step (boot 254 [(.r1, 0x30)] [0x50, 1]) = .next (after (boot 254 [(.r1, 0x30)] [0x50, 1]))
      ∧ (boot 254 [(.r1, 0x30)] [0x50, 1]).run = .running
      ∧ (after (boot 254 [(.r1, 0x30)] [0x50, 1])).run = .faulted := ⟨rfl, rfl, rfl⟩

/-- CALL at 254 meets a fault and CALL at 253 meets none. -/
theorem witness_FirstFaultIsRaised :
    ((boot 254 [] [0x50, 1]).run = .running
        ∧ firstFault (boot 254 [] [0x50, 1]) = some (.addressOutOfRange .mem 256))
      ∧ ((boot 253 [] [0x50, 1]).run = .running ∧ firstFault (boot 253 [] [0x50, 1]) = none) := by decide

theorem witness_LargeShiftCountsGiveZero :
    8 ≤ ((boot 0 [(.r1, 8)] []).reg .r1).toNat ∧ 8 ≤ ((boot 0 [(.r1, 0xFF)] []).reg .r1).toNat
      ∧ (boot 0 [] []).reg .r1 = 0 := by decide

theorem witness_DivModSplitTheDividend :
    ((boot 0 [(.r1, 1)] []).reg .r1).toNat ≠ 0 ∧ ((boot 0 [] []).reg .r1).toNat = 0 := by decide

theorem witness_OnlyCmpWritesFlags :
    exec (.add 0 1) (boot 0 [(.r0, 0xFF), (.r1, 1)] [])
        = .next ((boot 0 [(.r0, 0xFF), (.r1, 1)] []).setReg .r0 0 |>.advance 3)
      ∧ (Instr.add 0 1).opcode ≠ .cmp := ⟨rfl, by decide⟩

/-- The least and the greatest bad byte; opA good and opB bad. -/
theorem witness_BadRegisterOperandFaults :
    7 < (8 : Byte).toNat ∧ 7 < (255 : Byte).toNat ∧ (Instr.inc 8) ∈ ([.push 8, .inc 8] : List Instr)
      ∧ (7 < (7 : Byte).toNat ∨ 7 < (8 : Byte).toNat) := by decide

theorem witness_ConditionalJumps :
    ((boot 0 [] []).setFl 1).fl.toNat % 2 = 1 ∧ ((boot 0 [] []).setFl 4).fl.toNat % 2 = 0 := by decide

theorem witness_CallPushesReturnAddress : (boot 253 [] []).pc.toNat ≤ 253 ∧ Reg.r1 ≠ .r7 := by decide

theorem witness_CallReturnAddressOutOfRange :
    254 ≤ (boot 254 [] []).pc.toNat ∧ 254 ≤ (boot 258 [] []).pc.toNat := by decide

/-- A subroutine that changed a register, FL and pc, but not the stack pointer and the cell it points at. -/
theorem witness_CallThenRetReturns :
    (boot 253 [(.r1, 0x30)] []).pc.toNat ≤ 253
      ∧ exec (.call 1) (boot 253 [(.r1, 0x30)] [])
          = .next (((boot 253 [(.r1, 0x30)] []).decSp.setByte 0xF3 0xFF).jumpTo 0x30)
      ∧ ((boot 0x40 [(.r0, 1), (.r7, 0xF3)] []).setByte 0xF3 0xFF).reg .r7
          = (((boot 253 [(.r1, 0x30)] []).decSp.setByte 0xF3 0xFF).jumpTo 0x30).reg .r7
      ∧ ((boot 0x40 [(.r0, 1), (.r7, 0xF3)] []).setByte 0xF3 0xFF).byteAt 0xF3
          = (((boot 253 [(.r1, 0x30)] []).decSp.setByte 0xF3 0xFF).jumpTo 0x30).byteAt 0xF3 :=
  ⟨by decide, rfl, rfl, rfl⟩

theorem witness_PushStoresRegister : Reg.r6 ≠ .r7 := by decide

theorem witness_PopLoadsRegister : Reg.r0 ≠ .r7 ∧ Reg.r7 = .r7 := by decide

theorem witness_PushThenPopRoundTrip : Reg.r0 ≠ .r7 ∧ ((boot 0 [(.r7, 0)] []).reg .r7).toNat = 0 := by decide

/-- PUSH R0 at 253, the last place the hypotheses admit, onto 255: a HLT byte, and an undefined byte. -/
theorem witness_StoreSeenByNextFetch :
    ((boot 253 [(.r0, 1), (.r7, 0)] [0x45, 0]).run = .running
        ∧ (boot 253 [(.r0, 1), (.r7, 0)] [0x45, 0]).pc.toNat ≤ 253 ∧ Reg.r0 ≠ .r7
        ∧ (boot 253 [(.r0, 1), (.r7, 0)] [0x45, 0]).byteAt 253 = opcodeByte .push
        ∧ (boot 253 [(.r0, 1), (.r7, 0)] [0x45, 0]).byteAt 254 = regByte .r0
        ∧ ((boot 253 [(.r0, 1), (.r7, 0)] [0x45, 0]).decSp.reg .r7).toNat = 253 + 2
        ∧ (boot 253 [(.r0, 1), (.r7, 0)] [0x45, 0]).reg .r0 = opcodeByte .hlt)
      ∧ ¬ ImplementedByte ((boot 253 [(.r0, 0x99), (.r7, 0)] [0x45, 0]).reg .r0) :=
  ⟨by decide, not_implementedByte (by decide)⟩

/-- ADD at 254; at 253 with opA bad, with opB bad, and with both good. -/
theorem witness_AddStep :
    ((boot 254 [] [0xA0, 0]).run = .running ∧ (boot 254 [] [0xA0, 0]).pc.toNat ≤ 255
        ∧ (boot 254 [] [0xA0, 0]).byteAt 254 = 0xA0 ∧ 254 ≤ (boot 254 [] [0xA0, 0]).pc.toNat)
      ∧ ((boot 253 [] [0xA0, 8, 9]).byteAt 253 = 0xA0 ∧ (boot 253 [] [0xA0, 8, 9]).pc.toNat ≤ 253
        ∧ 7 < ((boot 253 [] [0xA0, 8, 9]).byteAt 254).toNat)
      ∧ (((boot 253 [] [0xA0, 7, 8]).byteAt 254).toNat ≤ 7 ∧ 7 < ((boot 253 [] [0xA0, 7, 8]).byteAt 255).toNat)
      ∧ ((boot 253 [] [0xA0, 7, 7]).byteAt 254 = regByte .r7
        ∧ (boot 253 [] [0xA0, 7, 7]).byteAt 255 = regByte .r7) := by decide

theorem witness_LdiStep :
    ((boot 254 [] [0x82, 0]).run = .running ∧ (boot 254 [] [0x82, 0]).pc.toNat ≤ 255
        ∧ (boot 254 [] [0x82, 0]).byteAt 254 = 0x82 ∧ 254 ≤ (boot 254 [] [0x82, 0]).pc.toNat)
      ∧ ((boot 253 [] [0x82, 8, 0]).byteAt 253 = 0x82 ∧ (boot 253 [] [0x82, 8, 0]).pc.toNat ≤ 253
        ∧ 7 < ((boot 253 [] [0x82, 8, 0]).byteAt 254).toNat)
      ∧ (boot 253 [] [0x82, 7, 0xFF]).byteAt 254 = regByte .r7 := by decide

/-- PRN at 255; at 254 with a bad and with a good register; and steps that print nothing. -/
theorem witness_PrnStep :
    ((boot 255 [] [0x47]).run = .running ∧ (boot 255 [] [0x47]).pc.toNat = 255
        ∧ (boot 255 [] [0x47]).byteAt 255 = 0x47 ∧ (after (boot 255 [] [0x47])).run = .faulted)
      ∧ ((boot 254 [] [0x47, 8]).pc.toNat ≤ 254 ∧ (boot 254 [] [0x47, 8]).byteAt 254 = 0x47
        ∧ 7 < ((boot 254 [] [0x47, 8]).byteAt 255).toNat)
      ∧ (boot 254 [] [0x47, 7]).byteAt 255 = regByte .r7
      ∧ 255 < (boot 256 [] []).pc.toNat ∧ (boot 0 [] [0x82, 0, 8]).byteAt 0 ≠ 0x47 := by decide

theorem witness_PrnStep_steps :
    step (boot 255 [] [0x47]) = .next (after (boot 255 [] [0x47]))
      ∧ step (boot 256 [] []) = .next (after (boot 256 [] []))
      ∧ step (boot 0 [] [0x82, 0, 8]) = .next (after (boot 0 [] [0x82, 0, 8])) := ⟨rfl, rfl, rfl⟩

theorem witness_MemoryIsPlainStorage :
    (255 : Nat) ≤ 255 ∧ exec .nop (boot 0 [] []) = .next ((boot 0 [] []).advance 1) ∧ Instr.nop.opcode ≠ .prn :=
  ⟨by decide, rfl, by decide⟩

theorem witness_CanonicalMemoriesAreEqual :
    Memory.wf (Memory.store (Memory.store (Memory.store [] 255 7) 0 9) 3 0) = true
      ∧ Memory.wf [(0, 9), (255, 7)] = true
      ∧ ∀ a : Nat, Memory.byteAt (Memory.store (Memory.store (Memory.store [] 255 7) 0 9) 3 0) a
          = Memory.byteAt [(0, 9), (255, 7)] a :=
  ⟨by decide, by decide, fun _ => rfl⟩

theorem witness_OnlyPushAndCallWriteMemory :
    exec (.push 0) (boot 0 [(.r0, 5), (.r7, 0)] [])
        = .next (((boot 0 [(.r0, 5), (.r7, 0)] []).decSp.setByte 255 5).advance 2)
      ∧ (((boot 0 [(.r0, 5), (.r7, 0)] []).decSp.setByte 255 5).advance 2).byteAt 255
          ≠ (boot 0 [(.r0, 5), (.r7, 0)] []).byteAt 255 := ⟨rfl, by decide⟩

/-- A running state whose step is a CALL, with FL not its reset value; and a faulted one. -/
theorem witness_StepKeepsInvariant :
    Inv ((boot 253 [(.r1, 0x30)] [0x50, 1]).setFl 2) ∧
      step ((boot 253 [(.r1, 0x30)] [0x50, 1]).setFl 2)
        = .next (after ((boot 253 [(.r1, 0x30)] [0x50, 1]).setFl 2)) :=
  ⟨{ mem_wf := by decide, fl_legal := by decide, pc_le := by decide, fault_iff := by decide
     fault_legal := by intro f h; cases h
     halted_at_hlt := by intro h; cases h }, rfl⟩

theorem witness_StepKeepsInvariant_faulted :
    Inv (raise (.addressOutOfRange .mem 256) (boot 256 [] [])) ∧
      step (raise (.addressOutOfRange .mem 256) (boot 256 [] []))
        = .next (raise (.addressOutOfRange .mem 256) (boot 256 [] [])) :=
  ⟨{ mem_wf := by decide, fl_legal := by decide, pc_le := by decide, fault_iff := by decide
     fault_legal := by intro f h; cases h; exact ⟨rfl, by simp [CauseLegal]⟩
     halted_at_hlt := by intro h; cases h }, rfl⟩

theorem witness_StepKeepsInvariant_halted :
    Inv { boot 255 [] [1] with run := .halted } ∧
      step { boot 255 [] [1] with run := .halted } = .next { boot 255 [] [1] with run := .halted } :=
  ⟨{ mem_wf := by decide, fl_legal := by decide, pc_le := by decide, fault_iff := by decide
     fault_legal := by intro f h; cases h
     halted_at_hlt := by intro _; decide }, rfl⟩

/-- A step that writes the register its operand names, and one that moves R7. -/
theorem witness_OnlyNamedRegistersChange :
    (exec (.ldi 3 9) (boot 0 [] []) = .next (((boot 0 [] []).setReg .r3 9).advance 3)
        ∧ (((boot 0 [] []).setReg .r3 9).advance 3).reg .r3 ≠ (boot 0 [] []).reg .r3)
      ∧ (exec .ret (boot 0 [] []) = .next (((boot 0 [] []).jumpTo 0).incSp)
        ∧ (((boot 0 [] []).jumpTo 0).incSp).reg .r7 ≠ (boot 0 [] []).reg .r7) :=
  ⟨⟨rfl, by decide⟩, rfl, by decide⟩

/-- A halt, a straight-line step that ends at 256, a jump, and a conditional jump not taken. -/
theorem witness_StepMovesPc :
    (boot 0 [] [1]).run = .running ∧ (after (boot 0 [] [1])).run ≠ .running
      ∧ (after (boot 255 [] [0])).run = .running ∧ (classify ((boot 255 [] [0]).byteAt 255)).setsPc = false
      ∧ (after (boot 0 [] [0x54, 7])).run = .running ∧ (classify ((boot 0 [] [0x54, 7]).byteAt 0)).setsPc = true
      ∧ (after (boot 254 [] [0x55, 0])).run = .running ∧ (after (boot 254 [] [0x55, 0])).pc.toNat = 256
      ∧ (classify ((boot 254 [] [0x55, 0]).byteAt 254)).setsPc = true := by decide

theorem witness_StepMovesPc_steps :
    step (boot 0 [] [1]) = .next (after (boot 0 [] [1])) ∧ step (boot 255 [] [0]) = .next (after (boot 255 [] [0]))
      ∧ step (boot 0 [] [0x54, 7]) = .next (after (boot 0 [] [0x54, 7]))
      ∧ step (boot 254 [] [0x55, 0]) = .next (after (boot 254 [] [0x55, 0])) := ⟨rfl, rfl, rfl, rfl⟩

theorem witness_RunningOffTheTopFaults :
    (boot 253 [] [0xA0, 0, 1]).run = .running
      ∧ step (boot 253 [] [0xA0, 0, 1]) = .next (after (boot 253 [] [0xA0, 0, 1]))
      ∧ (after (boot 253 [] [0xA0, 0, 1])).run = .running
      ∧ (classify ((boot 253 [] [0xA0, 0, 1]).byteAt 253)).setsPc = false
      ∧ (boot 253 [] [0xA0, 0, 1]).pc.toNat + (classify ((boot 253 [] [0xA0, 0, 1]).byteAt 253)).length = 256 :=
  ⟨rfl, rfl, by decide, by decide, by decide⟩

/-- Two states that differ in their output logs only. -/
theorem witness_RunsAreDetermined :
    Agree (boot 0 [] [0x47, 7]) ((boot 0 [] [0x47, 7]).emit 3)
      ∧ (boot 0 [] [0x47, 7]).fault = ((boot 0 [] [0x47, 7]).emit 3).fault
      ∧ (boot 0 [] [0x47, 7]).out ≠ ((boot 0 [] [0x47, 7]).emit 3).out :=
  ⟨⟨rfl, rfl, rfl, rfl, rfl⟩, rfl, by decide⟩

/-- A halted state, and a fault of each kind. -/
theorem witness_StatusTellsHaltFromFault :
    ({ boot 0 [] [1] with run := .halted } : State).run = .halted
      ∧ FaultsWith (.invalidOpcode 0xFF) (boot 0 [] []) (.next (raise (.invalidOpcode 0xFF) (boot 0 [] [])))
      ∧ FaultsWith .divisionByZero (boot 0 [] []) (.next (raise .divisionByZero (boot 0 [] [])))
      ∧ FaultsWith (.addressOutOfRange .mem 256) (boot 256 [] [])
          (.next (raise (.addressOutOfRange .mem 256) (boot 256 [] [])))
      ∧ (256 : Nat) < 512 := ⟨rfl, rfl, rfl, rfl, by decide⟩

theorem witness_RenderedLineIsShortestNumeral :
    ¬ 1 < (renderByte 9).length ∧ 1 < (renderByte 10).length ∧ (renderByte 0).head? = some '0'
      ∧ '5' ∈ renderByte 255 := by decide

end Sys2Proof.Tests
end

section
/-! PROOFS. What a step does to the run state and to the fault record (10_state.md R39, R40). -/

namespace Sys2Proof.Machine

/-- Only HLT's completion touches the run state, and no completion touches the fault record. -/
theorem Effect.keeps_run_and_fault {i : Instr} {s t : State} (hi : i ≠ .hlt) (h : Effect i s t) :
    t.run = s.run ∧ t.fault = s.fault := by
  cases i with
  | hlt => exact absurd rfl hi
  | nop | ret => subst h; exact ⟨rfl, rfl⟩
  | push | pop | prn | jmp | inc | dec | not | ldi =>
    obtain ⟨ra, -, rfl⟩ := h
    exact ⟨rfl, rfl⟩
  | jeq | jne =>
    obtain ⟨ra, -, rfl⟩ := h
    cases s.equalFlag <;> exact ⟨rfl, rfl⟩
  | call =>
    obtain ⟨ra, -, -, rfl⟩ := h
    exact ⟨rfl, rfl⟩
  | add | sub | mul | cmp | and | or | xor | shl | shr =>
    obtain ⟨ra, rb, -, -, rfl⟩ := h
    exact ⟨rfl, rfl⟩
  | div | mod =>
    obtain ⟨ra, rb, -, -, -, rfl⟩ := h
    exact ⟨rfl, rfl⟩
  | iret | pra | int | jgt | jlt | jle | jge | ld | st => exact h.elim

/-- A fetch answers HLT exactly when HLT's opcode byte stands at pc. -/
theorem fetchInstr_eq_hlt_iff (s : State) :
    fetchInstr s = .ok .hlt ↔ s.pc.toNat ≤ 255 ∧ s.byteAt s.pc.toNat = opcodeByte .hlt := by
  constructor
  · intro h
    obtain ⟨hpc, hb, -⟩ := fetchInstr_ok h
    exact ⟨hpc, hb⟩
  · rintro ⟨hpc, hb⟩
    rw [fetchInstr_of_opcode hpc hb]
    rfl

/-- A step in Halted or Faulted changes nothing (10_state.md R39). -/
theorem eq_of_step_of_not_running {s t : State} (h : step s = .next t) (hr : s.run ≠ .running) : t = s := by
  rw [step_eq, if_neg hr] at h
  exact (Host.Outcome.next.inj h).symm

/-- What a step of a running core does to the run state and the fault record: it halts by a fetched HLT, goes on
with the record as it was, or raises. -/
theorem step_running_cases {s t : State} (h : step s = .next t) (hr : s.run = .running) :
    (fetchInstr s = .ok .hlt ∧ t = s.halt)
    ∨ (t.run = .running ∧ t.fault = s.fault)
    ∨ ∃ c, t = raise c s := by
  rcases step_next h with ⟨hn, -⟩ | ⟨-, i, hf, -, he⟩ | ⟨-, hc⟩
  · exact absurd hr hn
  · by_cases hi : i = .hlt
    · subst hi
      exact .inl ⟨hf, he⟩
    · obtain ⟨hrun, hfault⟩ := he.keeps_run_and_fault hi
      exact .inr (.inl ⟨hrun.trans hr, hfault⟩)
  · exact .inr (.inr hc)

/-- A running core halts exactly when its fetch answers HLT. -/
theorem step_halts_iff {s t : State} (h : step s = .next t) (hr : s.run = .running) :
    t.run = .halted ↔ fetchInstr s = .ok .hlt := by
  constructor
  · intro ht
    rcases step_running_cases h hr with ⟨hf, -⟩ | ⟨hrun, -⟩ | ⟨c, rfl⟩
    · exact hf
    · simp [hrun] at ht
    · simp at ht
  · intro hf
    rw [step_of_fetch_ok hr hf, exec_hlt] at h
    rw [← Host.Outcome.next.inj h, State.halt_run]

/-- A running core enters Faulted only by a raise. -/
theorem eq_raise_of_step_faulted {s t : State} (h : step s = .next t) (hr : s.run = .running)
    (ht : t.run = .faulted) : ∃ c, t = raise c s := by
  rcases step_running_cases h hr with ⟨-, rfl⟩ | ⟨hrun, -⟩ | hc
  · simp at ht
  · simp [hrun] at ht
  · exact hc

/-- A step that changes the fault record is a raise in a running core. -/
theorem eq_raise_of_step_fault_ne {s t : State} (h : step s = .next t) (hne : t.fault ≠ s.fault) :
    s.run = .running ∧ ∃ c, t = raise c s := by
  by_cases hr : s.run = .running
  · rcases step_running_cases h hr with ⟨-, rfl⟩ | ⟨-, hfault⟩ | hc
    · exact absurd (State.halt_fault s) hne
    · exact absurd hfault hne
    · exact ⟨hr, hc⟩
  · rw [eq_of_step_of_not_running h hr] at hne
    exact absurd rfl hne

/-- Settles O15: the fetch answers HLT exactly on HLT's byte, and the inversion of a running step leaves a raise as
the only way into Faulted. -/
theorem runStateTransitions : Obligations.RunStateTransitions := by
  refine ⟨rfl, fun s t h => ⟨fun hr => ⟨?_, fun ht => ?_⟩, fun hr => ?_⟩⟩
  · exact (step_halts_iff h hr).trans (fetchInstr_eq_hlt_iff s)
  · obtain ⟨c, rfl⟩ := eq_raise_of_step_faulted h hr ht
    exact ⟨c, _, h, raise_run s c, raise_fault s c⟩
  · rw [eq_of_step_of_not_running h hr]

/-- Settles O16: a step that changes the record is a raise, and a raise writes a cause with the pc of the step. -/
theorem faultRecordWrittenOnce : Obligations.FaultRecordWrittenOnce := by
  refine ⟨rfl, fun s t h hne => ?_⟩
  obtain ⟨hr, c, rfl⟩ := eq_raise_of_step_fault_ne h hne
  exact ⟨hr, raise_run s c, c, raise_fault s c⟩

end Sys2Proof.Machine
end

section
/-! PROOFS. The decoder looks at no byte after the operands of an opcode (30_encoding.md R81, R91). -/

namespace Sys2Proof

/-- An opcode has at most two operand bytes (30_encoding.md R81, R89(b)). -/
theorem Opcode.arity_le_two (o : Opcode) : o.arity ≤ 2 := by
  cases o <;> decide

theorem takeOne_take {f : Byte → Instr} {bs rest : List Byte} {i : Instr} (h : takeOne f bs = .ok (i, rest)) :
    takeOne f (bs.take 1) = .ok (i, []) := by
  match bs, h with
  | _ :: _, rfl => rfl

theorem takeTwo_take {f : Byte → Byte → Instr} {bs rest : List Byte} {i : Instr}
    (h : takeTwo f bs = .ok (i, rest)) : takeTwo f (bs.take 2) = .ok (i, []) := by
  match bs, h with
  | _ :: _ :: _, rfl => rfl

theorem spellOne_take {f : Byte → Instr} {bs rest : List Byte} {i : Instr} (h : spellOne f bs = .ok (i, rest)) :
    spellOne f (bs.take 1) = .ok (i, []) := by
  match bs, h with
  | [], rfl | _ :: _, rfl => rfl

theorem spellTwo_take {f : Byte → Byte → Instr} {bs rest : List Byte} {i : Instr}
    (h : spellTwo f bs = .ok (i, rest)) : spellTwo f (bs.take 2) = .ok (i, []) := by
  match bs, h with
  | [], rfl | [_], rfl | _ :: _ :: _, rfl => rfl

/-- The instruction an opcode reads from the bytes after it is the one it reads from its operand bytes alone. -/
theorem buildInstr_take_arity {o : Opcode} {bs rest : List Byte} {i : Instr} (h : buildInstr o bs = .ok (i, rest)) :
    buildInstr o (bs.take o.arity) = .ok (i, []) := by
  cases o with
  | nop | hlt | ret | iret => cases h; rfl
  | push | pop | prn | call | jmp | jeq | jne | inc | dec | not => exact takeOne_take h
  | ldi | add | sub | mul | div | mod | cmp | and | or | xor | shl | shr => exact takeTwo_take h
  | pra | int | jgt | jlt | jle | jge => exact spellOne_take h
  | ld | st => exact spellTwo_take h

end Sys2Proof
end

section
/-! PROOFS. Reading back bytes placed in memory, and the fetch of an instruction that the decoder reads from the bytes
at pc (45_execution_loop.md R191 to R194; 10_state.md R25, R32). -/

namespace Sys2Proof.Machine

/-- Placing bytes at an address of memory places the first one and then the others above it. -/
theorem State.withBytes_cons (s : State) {a : Nat} (ha : a ≤ 255) (b : Byte) (bs : List Byte) :
    s.withBytes a (b :: bs) = (s.setByte a b).withBytes (a + 1) bs := by
  simp only [State.withBytes, loadBytes, if_neg (by omega : ¬ a > 255), State.setByte]

/-- Placing bytes leaves every address below them as it was. -/
theorem State.withBytes_byteAt_of_lt (s : State) {a k : Nat} (hk : k < a) (bs : List Byte) :
    (s.withBytes a bs).byteAt k = s.byteAt k := by
  show (loadBytes s.mem a bs).byteAt k = s.mem.byteAt k
  generalize s.mem = m
  induction bs generalizing m a with
  | nil => rfl
  | cons b bs ih =>
    rw [loadBytes, ih (by omega)]
    split
    · rfl
    · rw [Memory.byteAt_store, if_neg (by omega)]

/-- Bytes placed inside memory are read back. -/
theorem bytesFrom_withBytes (s : State) (a : Nat) (bs : List Byte) (h : a + bs.length ≤ 256) :
    bytesFrom (s.withBytes a bs) a bs.length = bs := by
  induction bs generalizing s a with
  | nil => rfl
  | cons b bs ih =>
    rw [List.length_cons] at h ⊢
    rw [bytesFrom_succ, if_neg (by omega), State.withBytes_cons s (by omega), ih _ _ (by omega),
      State.withBytes_byteAt_of_lt _ (by omega), State.setByte_byteAt, if_pos rfl]

/-- Fewer bytes from an address are the first ones of more bytes from it. -/
theorem take_bytesFrom (s : State) (a : Nat) {k n : Nat} (h : k ≤ n) :
    (bytesFrom s a n).take k = bytesFrom s a k := by
  induction k generalizing a n with
  | zero => rfl
  | succ k ih =>
    obtain ⟨n, rfl⟩ : ∃ m, n = m + 1 := ⟨n - 1, by omega⟩
    rw [bytesFrom_succ, bytesFrom_succ]
    split
    · rfl
    · rw [List.take_succ_cons, ih _ (by omega)]

/-- The fetch answers the instruction that the decoder reads from the three bytes at pc, or from those of them that
lie inside memory. -/
theorem fetchInstr_of_decode {s : State} {i : Instr} {rest : List Byte}
    (h : decode (bytesFrom s s.pc.toNat 3) = .ok (i, rest)) : fetchInstr s = .ok i := by
  rw [bytesFrom_succ] at h
  by_cases hpc : s.pc.toNat ≤ 255
  swap
  · rw [if_pos (by omega)] at h
    cases h
  rw [if_neg (by omega), decode, decodeFrom] at h
  cases ho : decodeOpcode (s.byteAt s.pc.toNat) with
  | none => rw [ho] at h; cases h
  | some o =>
    rw [ho] at h
    have hbuild := buildInstr_take_arity h
    rw [take_bytesFrom _ _ o.arity_le_two] at hbuild
    rw [fetchInstr_of_opcode hpc (eq_opcodeByte_of_decodeOpcode ho), operandCount_eq_arity, hbuild]

/-- A word that decodes is read by the decoder from the word's bytes. -/
theorem decode_tableBytes_of_decodeTableWord {n w : Nat} {i : Instr} (h : decodeTableWord n w = some i) :
    ∃ rest, decode (tableBytes n w) = .ok (i, rest) := by
  unfold decodeTableWord at h
  split at h
  next j rest hd => exact ⟨rest, by rw [hd, Option.some.inj h]⟩
  next => cases h

/-- A word placed at pc, inside memory, is what the fetch answers. -/
theorem fetchInstr_withFetchWord {s : State} (hpc : s.pc.toNat ≤ 253) {n w : Nat} {i : Instr}
    (h : decodeTableWord n w = some i) : fetchInstr (s.withFetchWord n w) = .ok i := by
  obtain ⟨rest, hd⟩ := decode_tableBytes_of_decodeTableWord h
  have hbytes : bytesFrom (s.withFetchWord n w) s.pc.toNat 3 = tableBytes n w :=
    bytesFrom_withBytes s s.pc.toNat (tableBytes n w)
      (by simp only [tableBytes, List.length_cons, List.length_nil]; omega)
  exact fetchInstr_of_decode (hbytes ▸ hd)

/-- Settles O1: the reset values evaluate, PUSH writes R7 minus 1, and a word placed at the reset pc is fetched. -/
theorem resetStackPointerAndPc : Obligations.ResetStackPointerAndPc := by
  refine ⟨rfl, rfl, fun ra => ⟨_, exec_push_regByte ra _, rfl⟩, fun n w => ⟨rfl, fun i h => ?_⟩⟩
  exact step_of_fetch_ok rfl (fetchInstr_withFetchWord (by decide) h)

end Sys2Proof.Machine
end

section
/-! PROOFS. Every cell is plain storage: what the two memory operations do inside memory, and that no instruction but
PRN emits (20_memory.md R55). -/

namespace Sys2Proof.Machine

/-- A read inside memory answers the cell. -/
theorem memRead_of_le {a : Nat} (ha : a ≤ 255) (s : State) : memRead a s = .ok (s.byteAt a) := by
  rw [memRead_eq, if_neg (by omega)]

/-- A write inside memory sets the cell. -/
theorem memWrite_of_le {a : Nat} (ha : a ≤ 255) (v : Byte) (s : State) : memWrite a v s = .ok (s.setByte a v) := by
  rw [memWrite, if_neg (by omega)]

theorem State.setByte_memKeptExcept (s : State) (a : Nat) (v : Byte) : MemKeptExcept a s (s.setByte a v) := by
  intro k hk
  rw [State.setByte_byteAt, if_neg hk]

/-- Writing to a cell the value it holds changes no byte. -/
theorem State.setByte_memKept_of_byteAt_eq {s : State} {a : Nat} {v : Byte} (h : s.byteAt a = v) :
    MemKept s (s.setByte a v) := by
  intro k
  by_cases hk : k = a
  · rw [State.setByte_byteAt, if_pos hk, hk, h]
  · exact s.setByte_memKeptExcept a v k hk

/-- No completion but PRN's touches the output log. -/
theorem Effect.keeps_out {i : Instr} {s t : State} (hi : i.opcode ≠ .prn) (h : Effect i s t) : t.out = s.out := by
  cases i with
  | prn => exact absurd rfl hi
  | nop | hlt | ret => subst h; rfl
  | push | pop | jmp | inc | dec | not | ldi =>
    obtain ⟨ra, -, rfl⟩ := h
    rfl
  | jeq | jne =>
    obtain ⟨ra, -, rfl⟩ := h
    cases s.equalFlag <;> rfl
  | call =>
    obtain ⟨ra, -, -, rfl⟩ := h
    rfl
  | add | sub | mul | cmp | and | or | xor | shl | shr =>
    obtain ⟨ra, rb, -, -, rfl⟩ := h
    rfl
  | div | mod =>
    obtain ⟨ra, rb, -, -, -, rfl⟩ := h
    rfl
  | iret | pra | int | jgt | jlt | jle | jge | ld | st => exact h.elim

/-- An instruction other than PRN leaves the output log as it was, whether it completes or raises. -/
theorem exec_keeps_out {i : Instr} {s t : State} (h : exec i s = .next t) (hi : i.opcode ≠ .prn) :
    t.out = s.out := by
  rcases exec_next h with he | ⟨c, rfl⟩
  · exact he.keeps_out hi
  · exact raise_out s c

/-- Settles O43: both memory operations act on the cell alone, reset lists no cell, and only PRN's effect emits. -/
theorem memoryIsPlainStorage : Obligations.MemoryIsPlainStorage := by
  refine ⟨fun s a v ha => ?_, fun _ => rfl, fun i s t => exec_keeps_out⟩
  have hback : (s.setByte a v).byteAt a = v := by rw [State.setByte_byteAt, if_pos rfl]
  exact ⟨memRead_of_le ha s, s.setByte a v, memWrite_of_le ha v s, rfl, hback, s.setByte_memKeptExcept a v,
    _, memWrite_of_le ha v _, State.setByte_memKept_of_byteAt_eq hback⟩

end Sys2Proof.Machine
end

section
/-! PROOFS. What the decoder reads from one opcode byte (30_encoding.md R81, R82, R85): the fields of `classify` as
arithmetic on the byte's value, and the length and the ALU bit of the named opcodes. -/

namespace Sys2Proof

open Machine

/-- A bit of a byte as a digit of its value. -/
theorem Byte.getLsbD_eq_decide (b : Byte) (k : Nat) : b.getLsbD k = decide (b.toNat / 2 ^ k % 2 = 1) := by
  rw [← BitVec.testBit_toNat, Nat.testBit_eq_decide_div_mod_eq]

/-- Bits 7:6 are the value divided by 64 (30_encoding.md R81). -/
theorem classify_length (b : Byte) : (classify b).length = b.toNat / 64 + 1 := by
  show (b >>> 6).toNat + 1 = _
  rw [BitVec.toNat_ushiftRight, Nat.shiftRight_eq_div_pow]

/-- Bit 5 of the value (30_encoding.md R82). -/
theorem classify_isAlu (b : Byte) : (classify b).isAlu = decide (b.toNat / 32 % 2 = 1) :=
  Byte.getLsbD_eq_decide b 5

/-- Bit 4 of the value (30_encoding.md R83). -/
theorem classify_setsPc (b : Byte) : (classify b).setsPc = decide (b.toNat / 16 % 2 = 1) :=
  Byte.getLsbD_eq_decide b 4

/-- The decoder of one byte as arithmetic on the byte's value, for all 256 of them (30_encoding.md R85). -/
theorem classify_eq (b : Byte) : classify b =
    { opcode := b, length := b.toNat / 64 + 1, isAlu := decide (b.toNat / 32 % 2 = 1)
      setsPc := decide (b.toNat / 16 % 2 = 1) } := by
  rw [← classify_length, ← classify_isAlu, ← classify_setsPc]
  rfl

/-- The length of a named opcode's byte counts that byte and the operand bytes (30_encoding.md R81, R91). -/
theorem classify_length_of_decodeOpcode {b : Byte} {o : Opcode} (h : decodeOpcode b = some o) :
    (classify b).length = 1 + operandCount b := by
  have hpos := classify_length b
  simp only [operandCount, h]
  omega

theorem classify_length_opcodeByte (i : Instr) :
    (classify (opcodeByte i.opcode)).length = 1 + i.operands.length := by
  rw [classify_length_of_decodeOpcode (decodeOpcode_opcodeByte _), operandCount_opcodeByte]

/-- No named opcode has bits 7:6 = 11 (30_encoding.md R81). -/
theorem classify_length_opcodeByte_le (o : Opcode) : (classify (opcodeByte o)).length ≤ 3 := by
  have harity := o.arity_le_two
  rw [classify_length_of_decodeOpcode (decodeOpcode_opcodeByte o), operandCount_eq_arity]
  omega

/-- A byte with bits 7:6 = 11 is undefined: its length would be 4 (30_encoding.md R81). -/
theorem decodeOpcode_eq_none_of_le {b : Byte} (hb : 0xC0 ≤ b.toNat) : decodeOpcode b = none := by
  cases h : decodeOpcode b with
  | none => rfl
  | some o =>
    have hle := classify_length_opcodeByte_le o
    rw [← eq_opcodeByte_of_decodeOpcode h, classify_length] at hle
    omega

/-- Bit 5 of a named opcode's byte is its ALU class (30_encoding.md R82, R89(c)). -/
theorem classify_isAlu_opcodeByte (o : Opcode) : (classify (opcodeByte o)).isAlu = o.alu := by
  cases o <;> rfl

/-- The ALU class, listed (30_encoding.md R82, R89(c)). -/
theorem Opcode.alu_eq_true_iff (o : Opcode) : o.alu = true ↔
    o ∈ ([.add, .sub, .mul, .div, .mod, .inc, .dec, .cmp, .and, .not, .or, .xor, .shl, .shr] : List Opcode) := by
  cases o <;> decide

/-- Settles O7: a named opcode's length is 1 plus its arity, so at most 3, which leaves no name for a byte whose
length is 4; its bit 5 is its ALU class. -/
theorem decoderReadsOneByte : Obligations.DecoderReadsOneByte := by
  refine ⟨classify_eq, fun i => ⟨?_, ?_⟩, fun b => decodeOpcode_eq_none_of_le, fun o => ?_⟩
  · exact classify_length_opcodeByte i
  · exact classify_length_opcodeByte_le i.opcode
  · rw [classify_isAlu_opcodeByte, o.alu_eq_true_iff]

end Sys2Proof
end

section
/-! PROOFS. The step of an opcode with two operand bytes (45_execution_loop.md R194), the frame of a register write,
and the whole rule of ADD (40_alu.md R110). -/

namespace Sys2Proof.Machine

/-- Taking a fault raises it. -/
theorem raises_raise (c : FaultCause) (s : State) : Raises c s (.next (raise c s)) :=
  ⟨_, rfl, raise_run s c, raise_fault s c⟩

/-- The fetch of an opcode with two operand bytes that both lie inside memory (45_execution_loop.md R194). -/
theorem fetchInstr_of_takeTwo {s : State} {o : Opcode} {f : Byte → Byte → Instr} (hbuild : buildInstr o = takeTwo f)
    (harity : o.arity = 2) (hb : s.byteAt s.pc.toNat = opcodeByte o) (hpc : s.pc.toNat ≤ 253) :
    fetchInstr s = .ok (f (s.byteAt (s.pc.toNat + 1)) (s.byteAt (s.pc.toNat + 2))) := by
  have hbytes : bytesFrom s (s.pc.toNat + 1) 2 = [s.byteAt (s.pc.toNat + 1), s.byteAt (s.pc.toNat + 2)] := by
    rw [bytesFrom_succ, if_neg (by omega), bytesFrom_succ, if_neg (by omega), bytesFrom_zero]
  rw [fetchInstr_of_opcode (by omega) hb, operandCount_eq_arity, harity, hbytes, hbuild, takeTwo]

/-- At 254 opB and at 255 opA is the first operand byte outside memory; its address is 256 both times
(45_execution_loop.md R194). -/
theorem fetchInstr_of_takeTwo_at_top {s : State} {o : Opcode} {f : Byte → Byte → Instr}
    (hbuild : buildInstr o = takeTwo f) (harity : o.arity = 2) (hb : s.byteAt s.pc.toNat = opcodeByte o)
    (hpc : s.pc.toNat ≤ 255) (htop : 254 ≤ s.pc.toNat) :
    fetchInstr s = .error (.addressOutOfRange .mem 256) := by
  rw [fetchInstr_of_opcode hpc hb, operandCount_eq_arity, harity, hbuild, bytesFrom_succ]
  obtain h | h : s.pc.toNat = 254 ∨ s.pc.toNat = 255 := by omega
  · rw [if_neg (by omega), bytesFrom_succ, if_pos (by omega), h]; rfl
  · rw [if_pos (by omega), h]; rfl

/-- pc goes on by the instruction's length without a wrap (10_state.md R28). -/
theorem State.advance_pc_toNat {s : State} {n : Nat} (h : s.pc.toNat + n < 512) :
    (s.advance n).pc.toNat = s.pc.toNat + n := by
  rw [State.advance_pc, BitVec.toNat_add, BitVec.toNat_ofNat, Nat.add_mod_mod, Nat.mod_eq_of_lt h]

/-- The frame of an instruction that writes one register and goes on: nothing but that register and pc changes. -/
theorem State.setReg_advance_frame (s : State) (r : Reg) (v : Byte) (n : Nat) :
    RegsKept [r] s ((s.setReg r v).advance n) ∧ MemKept s ((s.setReg r v).advance n)
      ∧ ControlKept s ((s.setReg r v).advance n) := by
  refine ⟨fun q hq => ?_, fun _ => rfl, rfl, rfl, rfl, rfl⟩
  rw [State.advance_reg, State.setReg_reg, if_neg (List.ne_of_not_mem_cons hq)]

/-- ADD's result is the sum on naturals reduced modulo 256 (40_alu.md R110). -/
theorem aluAdd_toNat (x y : Byte) : (aluAdd x y).toNat = (x.toNat + y.toNat) % 256 := by
  rw [aluAdd, ← Nat.cast_add, mask8_natCast_toNat]

theorem exec_add_of_gt_left {a : Byte} (h : 7 < a.toNat) (b : Byte) (s : State) :
    exec (.add a b) s = .next (raise (.addressOutOfRange .reg a.toNat) s) :=
  withRegs_of_gt_left h b s _

theorem exec_add_of_gt_right {a b : Byte} (ha : a.toNat ≤ 7) (hb : 7 < b.toNat) (s : State) :
    exec (.add a b) s = .next (raise (.addressOutOfRange .reg b.toNat) s) := by
  obtain ⟨ra, rfl⟩ := eq_regByte_of_le ha
  exact withRegs_of_gt_right ra hb s _

/-- Settles O40: at 254 and 255 the fetch raises; below, the step is ADD on the two bytes after pc, whose operands are
checked opA first. -/
theorem addStep : Obligations.AddStep := by
  intro s hr hpc hb
  refine ⟨fun htop => ?_, fun hlow => ?_⟩
  · rw [step_of_fetch_error hr (fetchInstr_of_takeTwo_at_top (o := .add) rfl rfl hb hpc htop)]
    exact raises_raise _ s
  · rw [step_of_fetch_ok hr (fetchInstr_of_takeTwo (o := .add) rfl rfl hb hlow)]
    refine ⟨fun ha => ?_, fun ha hbad => ?_, fun ra rb ha hb' => ?_⟩
    · rw [exec_add_of_gt_left ha]
      exact raises_raise _ s
    · rw [exec_add_of_gt_right ha hbad]
      exact raises_raise _ s
    · rw [ha, hb', exec_add_regByte]
      refine ⟨_, rfl, ?_, ?_, State.setReg_advance_frame s ra _ 3⟩
      · rw [State.advance_reg, State.setReg_reg, if_pos rfl, aluAdd_toNat]
      · exact State.advance_pc_toNat (s := s.setReg ra _) (by rw [State.setReg_pc]; omega)

end Sys2Proof.Machine
end

section
/-! PROOFS. CALL and the RET that comes back from it (41_control_flow.md R147). -/

namespace Sys2Proof.Machine

/-- A jump goes to the byte's value: pc takes it without sign or wrap. -/
theorem State.jumpTo_pc_toNat (s : State) (v : Byte) : (s.jumpTo v).pc.toNat = v.toNat := by
  rw [State.jumpTo_pc, BitVec.toNat_setWidth]
  exact Nat.mod_eq_of_lt (by have := v.isLt; omega)

/-- Taking the stack pointer down touches no other register. -/
theorem State.decSp_regsKept (s : State) : RegsKept [.r7] s s.decSp := by
  intro q hq
  rw [State.decSp_reg, if_neg (List.ne_of_not_mem_cons hq)]

/-- Modulo 256 one down and one up cancel, also at 0 (20_memory.md R58). -/
theorem mask8_sub_one_add_one (b : Byte) : mask8 ((mask8 ((b.toNat : Int) - 1)).toNat + 1) = b := by
  apply BitVec.eq_of_toNat_eq
  rw [mask8_toNat, mask8_toNat]
  have hb := b.isLt
  omega

/-- A state that has the stack pointer where `s` has it after going down by one gets `s`'s stack pointer back by
going up by one. -/
theorem State.incSp_reg_of_decSp {s u : State} (h : u.reg .r7 = s.decSp.reg .r7) : u.incSp.reg .r7 = s.reg .r7 := by
  rw [State.incSp_reg, if_pos rfl, h, State.decSp_reg, if_pos rfl]
  exact mask8_sub_one_add_one (s.reg .r7)

/-- The state CALL completes in when the return address lies inside memory. -/
theorem exec_call_regByte_of_le {s : State} (hpc : s.pc.toNat ≤ 253) (ra : Reg) :
    exec (.call (regByte ra)) s =
      .next ((s.decSp.setByte (s.decSp.reg .r7).toNat (BitVec.ofNat 8 (s.pc.toNat + 2))).jumpTo (s.decSp.reg ra)) := by
  rw [exec_call_regByte, if_neg (by omega)]

/-- RET with the byte `b` on top of the stack goes to `b` and takes the stack pointer up. -/
theorem exec_ret_of_byteAt {u : State} {b : Byte} (h : u.byteAt (u.reg .r7).toNat = b) :
    exec .ret u = .next (u.jumpTo b).incSp := by
  rw [exec_ret, h]

/-- Settles O30: CALL leaves pc + 2 in the cell the lowered stack pointer names; a RET that finds both as they were
left jumps to that byte, and raising the stack pointer undoes CALL's lowering. -/
theorem callThenRetReturns : Obligations.CallThenRetReturns := by
  intro s ra hpc
  refine ⟨_, exec_call_regByte_of_le hpc ra, s.decSp_regsKept, rfl, s.decSp.setByte_memKeptExcept _ _, ?_⟩
  intro u hsp hcell
  rw [State.jumpTo_reg, State.setByte_reg] at hsp hcell
  have hret : u.byteAt (u.reg .r7).toNat = BitVec.ofNat 8 (s.pc.toNat + 2) := by
    rw [hsp, hcell, State.jumpTo_byteAt, State.setByte_byteAt, if_pos rfl]
  refine ⟨_, exec_ret_of_byteAt hret, ?_, State.incSp_reg_of_decSp (u := u.jumpTo _) hsp⟩
  rw [State.incSp_pc, State.jumpTo_pc_toNat, BitVec.toNat_ofNat]
  omega

end Sys2Proof.Machine
end

section
/-! PROOFS. PUSH and the POP that undoes it (42_stack.md R163). -/

namespace Sys2Proof.Machine

/-- The lowered stack pointer on naturals: at 0 it wraps to 255 (20_memory.md R58). -/
theorem State.decSp_reg_r7_toNat (s : State) : (s.decSp.reg .r7).toNat = ((s.reg .r7).toNat + 255) % 256 := by
  rw [State.decSp_reg, if_pos rfl, mask8_toNat]
  omega

/-- Writing to a register the value it holds changes no register. -/
theorem State.setReg_regsKept_of_reg_eq {s : State} {r : Reg} {v : Byte} (h : s.reg r = v) :
    RegsKept [] s (s.setReg r v) := by
  intro q _
  by_cases hq : q = r
  · rw [State.setReg_reg, if_pos hq, hq, h]
  · rw [State.setReg_reg, if_neg hq]

/-- A state with the registers `s` has after its stack pointer went down gets all of `s`'s registers back when its
own goes up. -/
theorem State.incSp_regsKept_of_decSp {s u : State} (h : RegsKept [] s.decSp u) : RegsKept [] s u.incSp := by
  intro q _
  have hu : u.reg q = s.decSp.reg q := h q List.not_mem_nil
  by_cases hq : q = .r7
  · subst hq
    exact State.incSp_reg_of_decSp hu
  · rw [State.incSp_reg, if_neg hq, hu, State.decSp_reg, if_neg hq]

/-- PUSH of a register other than R7 takes the stack pointer down and writes one cell, the one the stack pointer then
names, with the value the register had before (42_stack.md R161). -/
theorem exec_push_regByte_of_ne {r : Reg} (hr : r ≠ .r7) (s : State) :
    ∃ t, exec (.push (regByte r)) s = .next t ∧ RegsKept [] s.decSp t
      ∧ MemKeptExcept (s.decSp.reg .r7).toNat s t ∧ t.byteAt (s.decSp.reg .r7).toNat = s.reg r := by
  refine ⟨_, exec_push_regByte r s, fun _ _ => rfl, s.decSp.setByte_memKeptExcept _ _, ?_⟩
  rw [State.advance_byteAt, State.setByte_byteAt, if_pos rfl, State.decSp_reg, if_neg hr]

/-- POP with the byte `b` on top of the stack puts `b` into the register and takes the stack pointer up. -/
theorem exec_pop_regByte_of_byteAt {t : State} {b : Byte} (h : t.byteAt (t.reg .r7).toNat = b) (r : Reg) :
    exec (.pop (regByte r)) t = .next ((t.setReg r b).incSp.advance 2) := by
  rw [exec_pop_regByte, h]

/-- Settles O33: POP finds the pushed value on top of the stack, so it writes to the register what the register still
holds, and its raising of the stack pointer undoes PUSH's lowering; PUSH's store is the only write to memory. -/
theorem pushThenPopRoundTrip : Obligations.PushThenPopRoundTrip := by
  intro s r hr
  rw [← s.decSp_reg_r7_toNat]
  obtain ⟨t, hpush, hlowered, hmem, hcell⟩ := exec_push_regByte_of_ne hr s
  have htop : t.byteAt (t.reg .r7).toNat = s.reg r := by
    rw [hlowered .r7 List.not_mem_nil, hcell]
  have hheld : t.reg r = s.reg r := by
    rw [hlowered r List.not_mem_nil, State.decSp_reg, if_neg hr]
  have hpopped : RegsKept [] s.decSp (t.setReg r (s.reg r)) := fun q hq =>
    (State.setReg_regsKept_of_reg_eq hheld q hq).trans (hlowered q hq)
  have hregs : RegsKept [] s (t.setReg r (s.reg r)).incSp := State.incSp_regsKept_of_decSp hpopped
  exact ⟨t, _, hpush, exec_pop_regByte_of_byteAt htop r, hregs r List.not_mem_nil, hregs .r7 List.not_mem_nil, hregs,
    hmem, hcell⟩

end Sys2Proof.Machine
end

section
/-! PROOFS. The whole rule of LDI and the PRN that prints what it loaded (43_plain.md R172). -/

namespace Sys2Proof.Machine

theorem exec_ldi_of_gt {a : Byte} (h : 7 < a.toNat) (imm : Byte) (s : State) :
    exec (.ldi a imm) s = .next (raise (.addressOutOfRange .reg a.toNat) s) :=
  withReg_of_gt h s _

/-- Settles O41: at 254 and 255 the fetch raises; below, the step is LDI on the two bytes after pc, of which only opA
is checked, and PRN reads back the immediate, which stands in the register. -/
theorem ldiStep : Obligations.LdiStep := by
  intro s hr hpc hb
  refine ⟨fun htop => ?_, fun hlow => ?_⟩
  · rw [step_of_fetch_error hr (fetchInstr_of_takeTwo_at_top (o := .ldi) rfl rfl hb hpc htop)]
    exact raises_raise _ s
  · rw [step_of_fetch_ok hr (fetchInstr_of_takeTwo (o := .ldi) rfl rfl hb hlow)]
    refine ⟨fun ha => ?_, fun ra ha => ?_⟩
    · rw [exec_ldi_of_gt ha]
      exact raises_raise _ s
    · rw [ha, exec_ldi_regByte]
      generalize s.byteAt (s.pc.toNat + 2) = imm
      have hloaded : ((s.setReg ra imm).advance 3).reg ra = imm := by
        rw [State.advance_reg, State.setReg_reg, if_pos rfl]
      have hpc' : ((s.setReg ra imm).advance 3).pc.toNat = s.pc.toNat + 3 :=
        State.advance_pc_toNat (s := s.setReg ra imm) (by rw [State.setReg_pc]; omega)
      obtain ⟨hregs, hmem, hcontrol⟩ := s.setReg_advance_frame ra imm 3
      refine ⟨_, rfl, hloaded, hpc', hregs, hmem, hcontrol, _, exec_prn_regByte ra _, ?_⟩
      rw [State.advance_out, State.emit_out, hloaded, State.advance_out, State.setReg_out]

end Sys2Proof.Machine
end

section
/-! PROOFS. The line the host writes for an emitted byte is the decimal numeral of its value (50_interfaces.md R216). -/

namespace Sys2Proof.Machine

theorem digitChar_eq_natDigitChar {n : Nat} (h : n < 10) : digitChar n = n.digitChar := by
  interval_cases n <;> rfl

/-- The model's numeral of at most three digits is the library's numeral to base 10. -/
theorem renderByte_eq_toDigits (v : Byte) : renderByte v = Nat.toDigits 10 v.toNat := by
  have hv : v.toNat < 256 := v.isLt
  unfold renderByte
  generalize v.toNat = n at hv
  have hlast : digitChar (n % 10) = (n % 10).digitChar := digitChar_eq_natDigitChar (Nat.mod_lt n (by decide))
  by_cases hone : n < 10
  · rw [if_pos hone, Nat.toDigits_of_lt_base hone, digitChar_eq_natDigitChar hone]
  rw [if_neg hone, Nat.toDigits_of_base_le (by decide) (by omega : 10 ≤ n), hlast]
  by_cases htwo : n < 100
  · rw [if_pos htwo, Nat.toDigits_of_lt_base (by omega), digitChar_eq_natDigitChar (by omega)]
    rfl
  · rw [if_neg htwo, Nat.toDigits_of_base_le (by decide) (by omega : 10 ≤ n / 10), Nat.div_div_eq_div_mul,
      Nat.toDigits_of_lt_base (by omega), digitChar_eq_natDigitChar (by omega), digitChar_eq_natDigitChar (by omega)]
    rfl

/-- One more emitted byte is one more line, its value in decimal, after the lines there were. -/
theorem renderOutput_append_singleton (out : List Byte) (v : Byte) :
    renderOutput (out ++ [v]) = renderOutput out ++ [Nat.toDigits 10 v.toNat] := by
  rw [renderOutput, List.map_append, List.map_singleton, renderByte_eq_toDigits]
  rfl

end Sys2Proof.Machine
end

section
/-! PROOFS. The step of an opcode with one operand byte (45_execution_loop.md R194), the steps that leave the output
log alone, and the whole rule of PRN (43_plain.md R173). -/

namespace Sys2Proof.Machine

/-- The fetch of an opcode whose one operand byte lies inside memory (45_execution_loop.md R194). -/
theorem fetchInstr_of_takeOne {s : State} {o : Opcode} {f : Byte → Instr} (hbuild : buildInstr o = takeOne f)
    (harity : o.arity = 1) (hb : s.byteAt s.pc.toNat = opcodeByte o) (hpc : s.pc.toNat ≤ 254) :
    fetchInstr s = .ok (f (s.byteAt (s.pc.toNat + 1))) := by
  have hbytes : bytesFrom s (s.pc.toNat + 1) 1 = [s.byteAt (s.pc.toNat + 1)] := by
    rw [bytesFrom_succ, if_neg (by omega), bytesFrom_zero]
  rw [fetchInstr_of_opcode (by omega) hb, operandCount_eq_arity, harity, hbytes, hbuild, takeOne]

/-- At 255 the one operand byte is outside memory (45_execution_loop.md R194). -/
theorem fetchInstr_of_takeOne_at_top {s : State} {o : Opcode} {f : Byte → Instr} (hbuild : buildInstr o = takeOne f)
    (harity : o.arity = 1) (hb : s.byteAt s.pc.toNat = opcodeByte o) (htop : s.pc.toNat = 255) :
    fetchInstr s = .error (.addressOutOfRange .mem 256) := by
  rw [fetchInstr_of_opcode (by omega) hb, operandCount_eq_arity, harity, hbuild, bytesFrom_succ, if_pos (by omega),
    htop]
  rfl

/-- Only a running core with PRN's byte at pc, inside memory, can change the output log. -/
theorem step_keeps_out_or_at_prn {s t : State} (h : step s = .next t) :
    t.out = s.out ∨ (s.run = .running ∧ s.pc.toNat ≤ 255 ∧ s.byteAt s.pc.toNat = opcodeByte .prn) := by
  rcases step_next h with ⟨-, rfl⟩ | ⟨hr, i, hf, -, he⟩ | ⟨-, c, rfl⟩
  · exact .inl rfl
  · by_cases hi : i.opcode = .prn
    · obtain ⟨hpc, hb, -⟩ := fetchInstr_ok hf
      exact .inr ⟨hr, hpc, hi ▸ hb⟩
    · exact .inl (he.keeps_out hi)
  · exact .inl (raise_out s c)

/-- A step into Faulted emits nothing: it is a raise. -/
theorem out_eq_of_step_faulted {s t : State} (h : step s = .next t) (hr : s.run = .running) (ht : t.run = .faulted) :
    t.out = s.out := by
  obtain ⟨c, rfl⟩ := eq_raise_of_step_faulted h hr ht
  exact raise_out s c

theorem exec_prn_of_gt {a : Byte} (h : 7 < a.toNat) (s : State) :
    exec (.prn a) s = .next (raise (.addressOutOfRange .reg a.toNat) s) :=
  withReg_of_gt h s _

/-- Settles O42: the log changes only in a step that begins on PRN's byte and does not fault. There the fetch raises
at 255; below, the step is PRN on the byte after pc, which emits one byte and goes on. -/
theorem prnStep : Obligations.PrnStep := by
  refine ⟨fun s t h hother => ?_, fun s t => out_eq_of_step_faulted, fun s hr hpc hb => ⟨fun htop => ?_, fun hlow => ?_⟩⟩
  · rcases step_keeps_out_or_at_prn h with hout | ⟨hr, hpc, hb⟩
    · exact hout
    · rcases hother with hstopped | hhigh | hbyte
      · exact absurd hr hstopped
      · omega
      · exact absurd hb hbyte
  · rw [step_of_fetch_error hr (fetchInstr_of_takeOne_at_top (o := .prn) rfl rfl hb htop)]
    exact raises_raise _ s
  · rw [step_of_fetch_ok hr (fetchInstr_of_takeOne (o := .prn) rfl rfl hb hlow)]
    refine ⟨fun ha => ?_, fun ra ha => ?_⟩
    · rw [exec_prn_of_gt ha]
      exact raises_raise _ s
    · rw [ha, exec_prn_regByte]
      have hpc' : ((s.emit (s.reg ra)).advance 2).pc.toNat = s.pc.toNat + 2 :=
        State.advance_pc_toNat (s := s.emit (s.reg ra)) (by rw [State.emit_pc]; omega)
      exact ⟨_, rfl, rfl, renderOutput_append_singleton s.out (s.reg ra), hpc', fun _ _ => rfl, fun _ => rfl, rfl, rfl,
        rfl⟩

end Sys2Proof.Machine
end

section
/-! PROOFS. The opcode fetch and the operand fetch (45_execution_loop.md R192, R194). -/

namespace Sys2Proof.Machine

/-- A read above memory raises its address (20_memory.md R57). -/
theorem memRead_of_gt {a : Nat} (ha : 255 < a) (s : State) : memRead a s = .error (.addressOutOfRange .mem a) := by
  rw [memRead_eq, if_pos ha]

/-- A running core whose fetch raises enters Faulted with that cause. -/
theorem raises_of_fetch_error {s : State} {c : FaultCause} (hr : s.run = .running) (h : fetchInstr s = .error c) :
    Raises c s (step s) := by
  rw [step_of_fetch_error hr h]
  exact raises_raise c s

/-- Settles O11: the fetch raises as its checked read at pc does, and inside memory that read answers the cell. -/
theorem opcodeFetch : Obligations.OpcodeFetch := by
  refine fun s hr => ⟨fun hhigh => ⟨memRead_of_gt hhigh s, ?_⟩, fun hpc => memRead_of_le hpc s⟩
  exact raises_of_fetch_error hr (fetchInstr_of_high hhigh)

/-- No two named opcodes share a byte (30_encoding.md R89(e)). -/
theorem opcodeByte_injective : Function.Injective opcodeByte := by
  intro o p h
  have hsome : some o = some p := by rw [← decodeOpcode_opcodeByte o, h, decodeOpcode_opcodeByte]
  exact Option.some.inj hsome

/-- What the fetch of an implemented opcode can answer: an instruction of that opcode, its operand bytes inside memory
(45_execution_loop.md R194). -/
theorem fetchInstr_ok_of_opcode {s : State} {o : Opcode} {i : Instr} (himp : o.implemented = true)
    (hb : s.byteAt s.pc.toNat = opcodeByte o) (h : fetchInstr s = .ok i) :
    i.opcode = o ∧ s.pc.toNat + operandCount (opcodeByte o) ≤ 255
      ∧ i.operands = (List.range (operandCount (opcodeByte o))).map fun k => s.byteAt (s.pc.toNat + 1 + k) := by
  obtain ⟨-, hbi, hops⟩ := fetchInstr_ok h
  obtain rfl : i.opcode = o := opcodeByte_injective (hbi.symm.trans hb)
  rw [operandCount_opcodeByte]
  exact ⟨rfl, hops himp⟩

/-- What the fetch of a named opcode can raise: 256, the first address outside memory, because an operand byte lies
there (45_execution_loop.md R194). -/
theorem fetchInstr_error_of_opcode {s : State} {o : Opcode} {c : FaultCause} (hpc : s.pc.toNat ≤ 255)
    (hb : s.byteAt s.pc.toNat = opcodeByte o) (h : fetchInstr s = .error c) :
    255 < s.pc.toNat + operandCount (opcodeByte o) ∧ c = .addressOutOfRange .mem 256 := by
  rcases fetchInstr_error h with ⟨hhigh, -⟩ | ⟨-, hnone, -⟩ | ⟨-, p, -, hp, hout, hc⟩
  · omega
  · rw [hb, decodeOpcode_opcodeByte] at hnone
    cases hnone
  · rw [← hp, hb] at hout
    exact ⟨hout, hc⟩

/-- The fetch of an implemented opcode whose operand bytes all lie inside memory answers the instruction of that
opcode with those bytes as its operands. -/
theorem fetchInstr_of_operands_inside {s : State} {o : Opcode} (himp : o.implemented = true)
    (hb : s.byteAt s.pc.toNat = opcodeByte o) (hfit : s.pc.toNat + operandCount (opcodeByte o) ≤ 255) :
    ∃ i, fetchInstr s = .ok i ∧ i.opcode = o ∧
      i.operands = (List.range (operandCount (opcodeByte o))).map fun k => s.byteAt (s.pc.toNat + 1 + k) := by
  cases hf : fetchInstr s with
  | ok i =>
    obtain ⟨hop, -, hbytes⟩ := fetchInstr_ok_of_opcode himp hb hf
    exact ⟨i, rfl, hop, hbytes⟩
  | error c =>
    obtain ⟨hout, -⟩ := fetchInstr_error_of_opcode (by omega) hb hf
    omega

/-- The fetch of an implemented opcode with an operand byte outside memory raises. -/
theorem fetchInstr_of_operands_outside {s : State} {o : Opcode} (himp : o.implemented = true) (hpc : s.pc.toNat ≤ 255)
    (hb : s.byteAt s.pc.toNat = opcodeByte o) (hout : 255 < s.pc.toNat + operandCount (opcodeByte o)) :
    fetchInstr s = .error (.addressOutOfRange .mem 256) := by
  cases hf : fetchInstr s with
  | ok i =>
    obtain ⟨-, hfit, -⟩ := fetchInstr_ok_of_opcode himp hb hf
    omega
  | error c =>
    obtain ⟨-, rfl⟩ := fetchInstr_error_of_opcode hpc hb hf
    rfl

/-- Settles O12: the length counts the opcode byte and the operand bytes, so at 255 and 254 the last operand byte lies
outside memory, and where the instruction fits the fetch answers it with the bytes after pc. -/
theorem operandFetch : Obligations.OperandFetch := by
  intro s o hr himp hpc hb
  rw [classify_length_of_decodeOpcode (decodeOpcode_opcodeByte o)]
  refine ⟨fun hlen htop => ?_, fun hlen htop => ?_, fun hfit => ?_⟩
  · exact raises_of_fetch_error hr (fetchInstr_of_operands_outside himp hpc hb (by omega))
  · exact raises_of_fetch_error hr (fetchInstr_of_operands_outside himp hpc hb (by omega))
  · obtain ⟨i, hf, hop, hbytes⟩ := fetchInstr_of_operands_inside himp hb (by omega)
    exact ⟨i, hop, by rwa [Nat.add_sub_cancel_left], step_of_fetch_ok hr hf⟩

end Sys2Proof.Machine
end

section
/-! PROOFS. A run does not look at the output log and the fault record it began with (45_execution_loop.md R202): with
an earlier history put in front of the first state, the same run ends in the same state with that history in front. -/

namespace Sys2Proof.Machine

/-- The state with the history of `past` in front of its own: the bytes `past` has emitted come first in the log, and
the fault record of `past` stands where the state has none. -/
def State.withHistory (s past : State) : State :=
  { s with fault := s.fault.or past.fault, out := past.out ++ s.out }

/-- The state without its history: an empty log and no fault record. -/
def State.forget (s : State) : State := { s with fault := none, out := [] }

theorem State.forget_withHistory (s : State) : s.forget.withHistory s = s := by
  simp [State.forget, State.withHistory]

/-- Agreement is equality up to the history. -/
theorem agree_iff_forget_eq (s s' : State) : Agree s s' ↔ s.forget = s'.forget := by
  simp [Agree, State.forget]

/-- States that agree are one state with two histories in front. -/
theorem Agree.forget_withHistory {s s' : State} (h : Agree s s') : s.forget.withHistory s' = s' := by
  rw [(agree_iff_forget_eq s s').mp h, State.forget_withHistory]

theorem agree_withHistory (t s s' : State) : Agree (t.withHistory s) (t.withHistory s') := ⟨rfl, rfl, rfl, rfl, rfl⟩

/-- Putting a history in front commutes with emitting. -/
theorem State.emit_withHistory (s past : State) (v : Byte) :
    (s.withHistory past).emit v = (s.emit v).withHistory past := by
  simp [State.emit, State.withHistory]

/-- An instruction's end does not look at the history when its phases do not. -/
theorem conclude_withHistory {s t past : State} {r r' : Check State} (hr : r' = r.map (·.withHistory past))
    (h : conclude s r = .next t) : conclude (s.withHistory past) r' = .next (t.withHistory past) := by
  subst hr
  rcases conclude_next h with rfl | ⟨c, rfl, rfl⟩ <;> rfl

/-- One register operand: checking it reads no state, so only the body has to ignore the history. -/
theorem withReg_withHistory {a : Byte} {s t past : State} {body body' : Reg → Check State}
    (hbody : ∀ ra, body' ra = (body ra).map (·.withHistory past)) (h : withReg a s body = .next t) :
    withReg a (s.withHistory past) body' = .next (t.withHistory past) := by
  refine conclude_withHistory ?_ h
  rcases ridx_cases a with ⟨ra, -, ha⟩ | ⟨-, ha⟩
  · rw [ha]
    exact hbody ra
  · rw [ha]
    rfl

/-- Two register operands, as one. -/
theorem withRegs_withHistory {a b : Byte} {s t past : State} {body body' : Reg → Reg → Check State}
    (hbody : ∀ ra rb, body' ra rb = (body ra rb).map (·.withHistory past)) (h : withRegs a b s body = .next t) :
    withRegs a b (s.withHistory past) body' = .next (t.withHistory past) := by
  refine conclude_withHistory ?_ h
  rcases ridx_cases a with ⟨ra, -, ha⟩ | ⟨-, ha⟩
  · rcases ridx_cases b with ⟨rb, -, hb⟩ | ⟨-, hb⟩
    · rw [ha, hb]
      exact hbody ra rb
    · rw [ha, hb]
      rfl
  · rw [ha]
    rfl

/-- An instruction does on a state with another history in front what it does on the state itself. -/
theorem exec_withHistory {i : Instr} {s t : State} (past : State) (h : exec i s = .next t) :
    exec i (s.withHistory past) = .next (t.withHistory past) := by
  cases i with
  | nop =>
    rw [exec_nop] at h ⊢
    cases h
    rfl
  | hlt =>
    rw [exec_hlt] at h ⊢
    cases h
    rfl
  | ret =>
    rw [exec_ret] at h ⊢
    cases h
    rfl
  | jmp | inc | dec | not | ldi => exact withReg_withHistory (fun _ => rfl) h
  | jeq | jne =>
    refine withReg_withHistory (fun ra => ?_) h
    rw [Except.map, apply_ite (State.withHistory · past)]
    rfl
  | prn => exact withReg_withHistory (fun _ => by rw [State.emit_withHistory]; rfl) h
  | push =>
    refine withReg_withHistory (fun ra => ?_) h
    simp only [memWrite_toNat, check_bind_ok]
    rfl
  | pop =>
    refine withReg_withHistory (fun ra => ?_) h
    simp only [memRead_toNat, check_bind_ok]
    rfl
  | call =>
    refine withReg_withHistory (fun ra => ?_) h
    simp only [memWrite_toNat, check_bind_ok]
    rw [apply_ite (Except.map _)]
    rfl
  | add | sub | mul | cmp | and | or | xor | shl | shr => exact withRegs_withHistory (fun _ _ => rfl) h
  | div | mod =>
    refine withRegs_withHistory (fun ra rb => ?_) h
    rw [apply_ite (Except.map _)]
    rfl
  | iret | pra | int | jgt | jlt | jle | jge | ld | st =>
    rw [exec_reserved rfl] at h ⊢
    cases h
    rfl

/-- Reading bytes does not look at the history. -/
theorem bytesFrom_withHistory (s past : State) (a n : Nat) : bytesFrom (s.withHistory past) a n = bytesFrom s a n := by
  induction n generalizing a with
  | zero => rfl
  | succ n ih =>
    rw [bytesFrom_succ, bytesFrom_succ, ih]
    rfl

/-- The fetch reads pc and memory alone. -/
theorem fetchInstr_withHistory (s past : State) : fetchInstr (s.withHistory past) = fetchInstr s := by
  unfold fetchInstr
  simp only [bytesFrom_withHistory]
  rfl

/-- A step on a state with another history in front is the step on the state itself, with that history in front. -/
theorem step_withHistory {s t : State} (past : State) (h : step s = .next t) :
    step (s.withHistory past) = .next (t.withHistory past) := by
  by_cases hr : s.run = .running
  · have hr' : (s.withHistory past).run = .running := hr
    have hfetch := fetchInstr_withHistory s past
    cases hf : fetchInstr s with
    | ok i =>
      rw [step_of_fetch_ok hr hf] at h
      rw [step_of_fetch_ok hr' (hfetch.trans hf)]
      exact exec_withHistory past h
    | error c =>
      rw [step_of_fetch_error hr hf] at h
      rw [step_of_fetch_error hr' (hfetch.trans hf)]
      cases h
      rfl
  · have hr' : (s.withHistory past).run ≠ .running := hr
    rw [eq_of_step_of_not_running h hr, step_eq, if_neg hr']

/-- Every state has a successor (45_execution_loop.md R191, R202). -/
theorem step_total (s : State) : ∃ t, step s = .next t := by
  by_cases hr : s.run = .running
  · cases hf : fetchInstr s with
    | ok i =>
      rw [step_of_fetch_ok hr hf]
      exact exec_total i s
    | error c => exact ⟨_, step_of_fetch_error hr hf⟩
  · exact ⟨s, by rw [step_eq, if_neg hr]⟩

/-- A run takes its first step and goes on from there. -/
theorem run_succ_of_step {M : Host.Core} {s u : M.State} (h : M.step s = .next u) (k : Nat) :
    M.run (k + 1) s = M.run k u := by
  rw [Host.Core.run, h]

/-- A run never stops: `k` steps end in a state. -/
theorem run_total (k : Nat) (s : State) : ∃ t : State, Host.Core.run Sys2Proof.core k s = .next t := by
  induction k generalizing s with
  | zero => exact ⟨s, rfl⟩
  | succ k ih =>
    obtain ⟨u, hu⟩ := step_total s
    rw [run_succ_of_step (M := Sys2Proof.core) hu]
    exact ih u

/-- A run from a state with another history in front is the run from the state itself, with that history in front. -/
theorem run_withHistory (past : State) (k : Nat) {s t : State} (h : Host.Core.run Sys2Proof.core k s = .next t) :
    Host.Core.run Sys2Proof.core k (s.withHistory past) = .next (t.withHistory past) := by
  induction k generalizing s with
  | zero =>
    cases h
    rfl
  | succ k ih =>
    obtain ⟨u, hu⟩ := step_total s
    rw [run_succ_of_step (M := Sys2Proof.core) hu] at h
    rw [run_succ_of_step (M := Sys2Proof.core) (step_withHistory past hu)]
    exact ih h

/-- Settles O51: both runs are the run from the common state without history, each with the history of its own first
state in front; the bytes both emit are the ones that run emits. -/
theorem runsAreDetermined : Obligations.RunsAreDetermined := by
  refine ⟨step_total, fun k s s' hagree => ?_⟩
  obtain ⟨t, ht⟩ := run_total k s.forget
  have hrun := run_withHistory s k ht
  have hrun' := run_withHistory s' k ht
  rw [State.forget_withHistory] at hrun
  rw [hagree.forget_withHistory] at hrun'
  exact ⟨_, _, hrun, hrun', agree_withHistory t s s', ⟨t.out, rfl, rfl⟩, congrArg t.fault.or⟩

end Sys2Proof.Machine
end

section
/-! PROOFS. The decoder and the encoder are inverse to each other (30_encoding.md sections 1 to 4), the opcode map is
the table of 34 bytes (section 2), and the words the source writes out. -/

namespace Sys2Proof

open Machine

/-- An opcode with its instruction's operand bytes in front builds that instruction and takes no byte beyond them. -/
theorem buildInstr_operands_append (i : Instr) (rest : List Byte) :
    buildInstr i.opcode (i.operands ++ rest) = .ok (i, rest) := by
  cases i <;> rfl

/-- Settles O4: the dispatcher recovers the opcode from its byte, and the opcode takes exactly its operand bytes. -/
theorem decodeEncodeRoundTrip : Obligations.DecodeEncodeRoundTrip := by
  intro i rest
  rw [encode, List.cons_append, decode, decodeFrom, decodeOpcode_opcodeByte]
  exact buildInstr_operands_append i rest

theorem takeOne_eq_ok {f : Byte → Instr} {bs rest : List Byte} {i : Instr} (h : takeOne f bs = .ok (i, rest)) :
    ∃ a, i = f a ∧ bs = a :: rest := by
  match bs, h with
  | a :: _, rfl => exact ⟨a, rfl, rfl⟩

theorem takeTwo_eq_ok {f : Byte → Byte → Instr} {bs rest : List Byte} {i : Instr}
    (h : takeTwo f bs = .ok (i, rest)) : ∃ a b, i = f a b ∧ bs = a :: b :: rest := by
  match bs, h with
  | a :: b :: _, rfl => exact ⟨a, b, rfl, rfl⟩

/-- With a byte there, spelling one operand is taking it. -/
theorem spellOne_eq_takeOne {bs : List Byte} (h : 1 ≤ bs.length) (f : Byte → Instr) :
    spellOne f bs = takeOne f bs := by
  match bs, h with
  | _ :: _, _ => rfl

/-- With two bytes there, spelling two operands is taking them. -/
theorem spellTwo_eq_takeTwo {bs : List Byte} (h : 2 ≤ bs.length) (f : Byte → Byte → Instr) :
    spellTwo f bs = takeTwo f bs := by
  match bs, h with
  | _ :: _ :: _, _ => rfl

/-- The bytes an opcode is built from are the operands of the instruction and what is left over, unless an operand
byte of a reserved opcode was missing and spelled 0 (log entry 5). -/
theorem eq_operands_append_of_buildInstr {o : Opcode} {bs rest : List Byte} {i : Instr}
    (hlen : o.implemented = true ∨ o.arity ≤ bs.length) (h : buildInstr o bs = .ok (i, rest)) :
    bs = i.operands ++ rest := by
  cases o with
  | nop | hlt | ret | iret => cases h; rfl
  | push | pop | prn | call | jmp | jeq | jne | inc | dec | not =>
    obtain ⟨a, rfl, rfl⟩ := takeOne_eq_ok h
    rfl
  | ldi | add | sub | mul | div | mod | cmp | and | or | xor | shl | shr =>
    obtain ⟨a, b, rfl, rfl⟩ := takeTwo_eq_ok h
    rfl
  | pra | int | jgt | jlt | jle | jge =>
    rw [buildInstr, spellOne_eq_takeOne (hlen.resolve_left Bool.false_ne_true)] at h
    obtain ⟨a, rfl, rfl⟩ := takeOne_eq_ok h
    rfl
  | ld | st =>
    rw [buildInstr, spellTwo_eq_takeTwo (hlen.resolve_left Bool.false_ne_true)] at h
    obtain ⟨a, b, rfl, rfl⟩ := takeTwo_eq_ok h
    rfl

/-- What a successful decoding says of the first byte: it is the byte of the opcode that the rest is built for. -/
theorem decode_cons_eq_ok {ir : Byte} {bs rest : List Byte} {i : Instr} (h : decode (ir :: bs) = .ok (i, rest)) :
    ir = opcodeByte i.opcode ∧ buildInstr i.opcode bs = .ok (i, rest) := by
  rw [decode, decodeFrom] at h
  cases ho : decodeOpcode ir with
  | none => rw [ho] at h; cases h
  | some o =>
    rw [ho] at h
    obtain rfl : i.opcode = o := buildInstr_opcode h
    exact ⟨eq_opcodeByte_of_decodeOpcode ho, h⟩

/-- Settles O5: the first byte is the opcode's, and after it stand two bytes at least, so none is spelled 0. -/
theorem encodeDecodeRoundTrip : Obligations.EncodeDecodeRoundTrip := by
  intro bs i rest hlen h
  cases bs with
  | nil => cases h
  | cons ir bs =>
    obtain ⟨rfl, hbuild⟩ := decode_cons_eq_ok h
    have hargs : i.opcode.arity ≤ bs.length :=
      i.opcode.arity_le_two.trans (Nat.le_of_succ_le_succ hlen)
    rw [eq_operands_append_of_buildInstr (.inr hargs) hbuild]
    rfl

/-- Settles O6: each word is the encoding of its instruction, and bits 7:6 of 0xFF are 11, which names no opcode. -/
theorem writtenOutWordsDecode : Obligations.WrittenOutWordsDecode := by
  have hff : decodeOpcode 0xFF = none := decodeOpcode_eq_none_of_le (by decide)
  refine ⟨decodeEncodeRoundTrip (.ldi 0 8) [], decodeEncodeRoundTrip (.add 0 1) [], decodeEncodeRoundTrip (.prn 0) [],
    decodeEncodeRoundTrip .hlt [], decodeEncodeRoundTrip (.call 1) [], decodeEncodeRoundTrip (.push 7) [],
    decodeEncodeRoundTrip (.st 2 3) [], ?_⟩
  show decode [0xFF] = _
  rw [decode, decodeFrom, hff]

/-- The dispatcher is the inverse of the opcode map. -/
theorem decodeOpcode_eq_some_iff (b : Byte) (o : Opcode) : decodeOpcode b = some o ↔ opcodeByte o = b := by
  refine ⟨fun h => (eq_opcodeByte_of_decodeOpcode h).symm, ?_⟩
  rintro rfl
  exact decodeOpcode_opcodeByte o

theorem Opcode.mem_all (o : Opcode) : o ∈ Opcode.all := by
  cases o <;> decide

/-- The values of the opcode bytes, in the order of `Opcode.all`. -/
def opcodeValues : List Nat := Opcode.all.map fun o => (opcodeByte o).toNat

/-- A number is the value of an opcode byte exactly when it is a byte that is dispatched. -/
theorem mem_opcodeValues_iff (n : Nat) :
    n ∈ opcodeValues ↔ n < 256 ∧ decodeOpcode (BitVec.ofNat 8 n) ≠ none := by
  rw [opcodeValues, List.mem_map]
  constructor
  · rintro ⟨o, -, rfl⟩
    rw [BitVec.ofNat_toNat, BitVec.setWidth_eq, decodeOpcode_opcodeByte]
    exact ⟨(opcodeByte o).isLt, Option.some_ne_none o⟩
  · rintro ⟨hn, hsome⟩
    obtain ⟨o, ho⟩ := Option.ne_none_iff_exists'.mp hsome
    refine ⟨o, o.mem_all, ?_⟩
    rw [← eq_opcodeByte_of_decodeOpcode ho, BitVec.toNat_ofNat, Nat.mod_eq_of_lt hn]

/-- No value stands twice among the opcode values, because no two opcodes share a byte (30_encoding.md R89(e)). -/
theorem opcodeValues_nodup : opcodeValues.Nodup :=
  List.Nodup.map (fun _ _ h => opcodeByte_injective (BitVec.eq_of_toNat_eq h)) (by decide)

/-- 34 of the 256 bytes are dispatched (30_encoding.md R87, R88). -/
theorem length_dispatched :
    ((List.range 256).filter fun n => ! (decodeOpcode (BitVec.ofNat 8 n)).isNone).length = 34 := by
  have hperm : ((List.range 256).filter fun n => ! (decodeOpcode (BitVec.ofNat 8 n)).isNone).Perm opcodeValues :=
    (List.perm_ext_iff_of_nodup (List.nodup_range.filter _) opcodeValues_nodup).mpr fun n => by
      simp [mem_opcodeValues_iff, Option.isSome_iff_ne_none]
  exact hperm.length_eq

/-- Settles O8: the table is the graph of the opcode map, of which the dispatcher is the inverse; of the 256 bytes the
34 of the map are dispatched, which leaves 222. -/
theorem opcodeMapIsExact : Obligations.OpcodeMapIsExact := by
  refine ⟨fun b o => ?_, ?_⟩
  · rw [decodeOpcode_eq_some_iff]
    show _ ↔ (o, b) ∈ Opcode.all.map fun p => (p, opcodeByte p)
    rw [List.mem_map]
    constructor
    · rintro rfl
      exact ⟨o, o.mem_all, rfl⟩
    · rintro ⟨p, -, hp⟩
      cases hp
      rfl
  · have hsplit := List.length_eq_length_filter_add (l := List.range 256)
      fun n => (decodeOpcode (BitVec.ofNat 8 n)).isNone
    rw [length_dispatched, List.length_range] at hsplit
    omega

/-- Bit 4 of a named opcode's byte says whether the opcode sets pc itself (30_encoding.md R83, R89(d)). -/
theorem classify_setsPc_opcodeByte (o : Opcode) : (classify (opcodeByte o)).setsPc = o.jump := by
  cases o <;> rfl

/-- Bits 7:6 of a named opcode's byte count its operands (30_encoding.md R81, R89(b)). -/
theorem opcodeByte_div_eq_arity (o : Opcode) : (opcodeByte o).toNat / 64 = o.arity := by
  have h := classify_length_of_decodeOpcode (decodeOpcode_opcodeByte o)
  rw [classify_length, operandCount_eq_arity] at h
  omega

/-- Settles O9: the four attested bytes evaluate, the bits are what the decoder of one byte reads, and the map is
injective. -/
theorem opcodeMapMeetsTheSource : Obligations.OpcodeMapMeetsTheSource := by
  have hbits : opcodeMapBits params.opcodeMap = true := by
    simp only [opcodeMapBits, List.all_eq_true, Bool.and_eq_true, beq_iff_eq]
    exact fun o _ => ⟨⟨opcodeByte_div_eq_arity o, classify_isAlu_opcodeByte o⟩, classify_setsPc_opcodeByte o⟩
  have hdistinct : opcodeMapDistinct params.opcodeMap = true := by
    simp only [opcodeMapDistinct, List.all_eq_true, Bool.or_eq_true, beq_iff_eq, bne_iff_ne]
    exact fun o _ p _ => (eq_or_ne o p).imp_right opcodeByte_injective.ne
  show (opcodeMapAttested params.opcodeMap && opcodeMapBits params.opcodeMap
    && opcodeMapDistinct params.opcodeMap) = true
  rw [hbits, hdistinct]
  rfl

end Sys2Proof
end

section
/-! PROOFS. Which fault an instruction meets, and which a step meets: `checkFault` lists the checks of each instruction
in the order in which they are made, and `exec` raises the first that fails or else completes (60_exceptions.md
R238). -/

namespace Sys2Proof.Machine

/-- What the check of a register operand raises (30_encoding.md R92). -/
def regFault (b : Byte) : Option FaultCause :=
  if 7 < b.toNat then some (.addressOutOfRange .reg b.toNat) else none

theorem regFault_of_gt {b : Byte} (h : 7 < b.toNat) : regFault b = some (.addressOutOfRange .reg b.toNat) := if_pos h

@[simp] theorem regFault_regByte (r : Reg) : regFault (regByte r) = none := by
  cases r <;> rfl

/-- The register an operand byte names, read, is the register. -/
@[simp] theorem namedReg_regByte (s : State) (r : Reg) : namedReg s (regByte r) = s.reg r := by
  cases r <;> rfl

/-- The first check of the instruction that fails in `s`, or none; a reserved instruction has one check, which always
fails. -/
def checkFault (i : Instr) (s : State) : Option FaultCause :=
  match i with
  | .nop | .hlt | .ret => none
  | .push a | .pop a | .prn a | .jmp a | .jeq a | .jne a | .inc a | .dec a | .not a | .ldi a _ => regFault a
  | .call a =>
    (regFault a).or (if s.pc.toNat + 2 > 255 then some (.addressOutOfRange .mem (s.pc.toNat + 2)) else none)
  | .add a b | .sub a b | .mul a b | .cmp a b | .and a b | .or a b | .xor a b | .shl a b | .shr a b =>
    (regFault a).or (regFault b)
  | .div a b | .mod a b =>
    ((regFault a).or (regFault b)).or (if namedReg s b = 0 then some .divisionByZero else none)
  | .iret | .pra _ | .int _ | .jgt _ | .jlt _ | .jle _ | .jge _ | .ld _ _ | .st _ _ =>
    some (.invalidOpcode (opcodeByte i.opcode))

theorem checkFault_of_reserved {i : Instr} (h : i.opcode.implemented = false) (s : State) :
    checkFault i s = some (.invalidOpcode (opcodeByte i.opcode)) := by
  cases i with
  | iret | pra | int | jgt | jlt | jle | jge | ld | st => rfl
  | nop | hlt | ret | push | pop | prn | call | jmp | jeq | jne | inc | dec | not | ldi | add | sub | mul | div | mod
  | cmp | and | or | xor | shl | shr => cases h

/-- An instruction does what its effect says, where there is one. -/
theorem exec_of_effect {i : Instr} {s t : State} (h : Effect i s t) : exec i s = .next t := by
  cases i with
  | nop => rw [exec_nop, h]
  | hlt => rw [exec_hlt, h]
  | ret => rw [exec_ret, h]
  | push | pop | prn | jmp | jeq | jne | inc | dec | not | ldi =>
    obtain ⟨ra, rfl, rfl⟩ := h
    simp only [exec_push_regByte, exec_pop_regByte, exec_prn_regByte, exec_jmp_regByte, exec_jeq_regByte,
      exec_jne_regByte, exec_inc_regByte, exec_dec_regByte, exec_not_regByte, exec_ldi_regByte]
  | call =>
    obtain ⟨ra, rfl, hret, rfl⟩ := h
    rw [exec_call_regByte, if_neg (by omega)]
  | add | sub | mul | cmp | and | or | xor | shl | shr =>
    obtain ⟨ra, rb, rfl, rfl, rfl⟩ := h
    simp only [exec_add_regByte, exec_sub_regByte, exec_mul_regByte, exec_cmp_regByte, exec_and_regByte,
      exec_or_regByte, exec_xor_regByte, exec_shl_regByte, exec_shr_regByte]
  | div | mod =>
    obtain ⟨ra, rb, rfl, rfl, hd, rfl⟩ := h
    simp only [exec_div_regByte, exec_mod_regByte, if_neg hd]
  | iret | pra | int | jgt | jlt | jle | jge | ld | st => exact h.elim

/-- An instruction raises the first of its checks that fails. -/
theorem exec_of_checkFault {i : Instr} {s : State} {c : FaultCause} (h : checkFault i s = some c) :
    exec i s = .next (raise c s) := by
  cases i with
  | nop | hlt | ret => cases h
  | push a | pop a | prn a | jmp a | jeq a | jne a | inc a | dec a | not a | ldi a =>
    rcases ridx_cases a with ⟨ra, rfl, -⟩ | ⟨hgt, -⟩
    · simp [checkFault] at h
    · obtain rfl : _ = c := by simpa [checkFault, regFault_of_gt hgt] using h
      exact withReg_of_gt hgt s _
  | call a =>
    rcases ridx_cases a with ⟨ra, rfl, -⟩ | ⟨hgt, -⟩
    · obtain ⟨hret, rfl⟩ : 255 < s.pc.toNat + 2 ∧ _ = c := by simpa [checkFault] using h
      rw [exec_call_regByte, if_pos hret]
    · obtain rfl : _ = c := by simpa [checkFault, regFault_of_gt hgt] using h
      exact withReg_of_gt hgt s _
  | add a b | sub a b | mul a b | cmp a b | and a b | or a b | xor a b | shl a b | shr a b =>
    rcases ridx_cases a with ⟨ra, rfl, -⟩ | ⟨hgt, -⟩
    · rcases ridx_cases b with ⟨rb, rfl, -⟩ | ⟨hgt, -⟩
      · simp [checkFault] at h
      · obtain rfl : _ = c := by simpa [checkFault, regFault_of_gt hgt] using h
        exact withRegs_of_gt_right ra hgt s _
    · obtain rfl : _ = c := by simpa [checkFault, regFault_of_gt hgt] using h
      exact withRegs_of_gt_left hgt b s _
  | div a b | mod a b =>
    rcases ridx_cases a with ⟨ra, rfl, -⟩ | ⟨hgt, -⟩
    · rcases ridx_cases b with ⟨rb, rfl, -⟩ | ⟨hgt, -⟩
      · obtain ⟨hd, rfl⟩ : s.reg rb = 0 ∧ _ = c := by simpa [checkFault] using h
        simp only [exec_div_regByte, exec_mod_regByte, if_pos hd]
      · obtain rfl : _ = c := by simpa [checkFault, regFault_of_gt hgt] using h
        exact withRegs_of_gt_right ra hgt s _
    · obtain rfl : _ = c := by simpa [checkFault, regFault_of_gt hgt] using h
      exact withRegs_of_gt_left hgt b s _
  | iret | pra | int | jgt | jlt | jle | jge | ld | st =>
    cases h
    exact exec_reserved rfl s

/-- An operand byte whose check does not fail is the byte of a register. -/
theorem regFault_eq_none {b : Byte} (h : regFault b = none) : ∃ r, b = regByte r := by
  refine eq_regByte_of_le (Nat.le_of_not_lt fun hgt => ?_)
  rw [regFault_of_gt hgt] at h
  cases h

/-- An instruction none of whose checks fails has an effect. -/
theorem effect_of_checkFault_eq_none {i : Instr} {s : State} (h : checkFault i s = none) : ∃ t, Effect i s t := by
  cases i with
  | nop | hlt | ret => exact ⟨_, rfl⟩
  | push a | pop a | prn a | jmp a | jeq a | jne a | inc a | dec a | not a | ldi a =>
    obtain ⟨ra, rfl⟩ := regFault_eq_none h
    exact ⟨_, ra, rfl, rfl⟩
  | call a =>
    obtain ⟨ha, hret⟩ := Option.or_eq_none_iff.mp h
    obtain ⟨ra, rfl⟩ := regFault_eq_none ha
    exact ⟨_, ra, rfl, by simpa using hret, rfl⟩
  | add a b | sub a b | mul a b | cmp a b | and a b | or a b | xor a b | shl a b | shr a b =>
    obtain ⟨ha, hb⟩ := Option.or_eq_none_iff.mp h
    obtain ⟨ra, rfl⟩ := regFault_eq_none ha
    obtain ⟨rb, rfl⟩ := regFault_eq_none hb
    exact ⟨_, ra, rb, rfl, rfl, rfl⟩
  | div a b | mod a b =>
    obtain ⟨hab, hd⟩ := Option.or_eq_none_iff.mp h
    obtain ⟨ha, hb⟩ := Option.or_eq_none_iff.mp hab
    obtain ⟨ra, rfl⟩ := regFault_eq_none ha
    obtain ⟨rb, rfl⟩ := regFault_eq_none hb
    exact ⟨_, ra, rb, rfl, rfl, by simpa using hd, rfl⟩
  | iret | pra | int | jgt | jlt | jle | jge | ld | st => cases h

/-- Taking a fault is `raise K(info)` of 00_scope.md R12. -/
theorem faultsWith_raise (c : FaultCause) (s : State) : FaultsWith c s (.next (raise c s)) := rfl

theorem faultsWith_of_checkFault {i : Instr} {s : State} {c : FaultCause} (h : checkFault i s = some c) :
    FaultsWith c s (exec i s) := by
  rw [exec_of_checkFault h]
  exact faultsWith_raise c s

/-- Of two register operands, one of them bad, the first bad one is reported. -/
theorem regFault_or_of_gt {a b : Byte} (h : 7 < a.toNat ∨ 7 < b.toNat) :
    (regFault a).or (regFault b) =
      some (.addressOutOfRange .reg (if 7 < a.toNat then a.toNat else b.toNat)) := by
  by_cases ha : 7 < a.toNat
  · rw [regFault_of_gt ha, Option.some_or, if_pos ha]
  · rw [regFault, if_neg ha, Option.none_or, regFault_of_gt (h.resolve_left ha), if_neg ha]

/-- Settles O24: the check of opA comes before the check of opB in every instruction of the lists. -/
theorem badRegisterOperandFaults : Obligations.BadRegisterOperandFaults := by
  intro s a b
  refine ⟨fun ha i hi => faultsWith_of_checkFault ?_, fun hab i hi => faultsWith_of_checkFault ?_⟩
  · fin_cases hi <;> simp only [checkFault, regFault_of_gt ha, Option.some_or]
  · have hfirst := regFault_or_of_gt hab
    fin_cases hi <;> simp only [checkFault, hfirst, Option.some_or]

/-- Settles O28: the register operand is good, so the check of the return address is the one that fails. -/
theorem callReturnAddressOutOfRange : Obligations.CallReturnAddressOutOfRange := by
  intro s ra hpc
  apply faultsWith_of_checkFault
  rw [checkFault, regFault_regByte, Option.none_or, if_pos (by omega)]

/-- Settles O39: the one check of a reserved instruction fails with the byte of its opcode. -/
theorem reservedInstructionsFault : Obligations.ReservedInstructionsFault := by
  intro s a b
  refine ⟨?_, ?_, ?_, ?_, ?_, ?_, ?_, ?_, ?_⟩
  all_goals exact faultsWith_of_checkFault (checkFault_of_reserved rfl s)

end Sys2Proof.Machine
end

section
/-! PROOFS. Which fault a step meets first (60_exceptions.md R238), and what a raise leaves as it was (section 4). -/

namespace Sys2Proof.Machine

/-- The model's test for an implemented opcode byte. -/
theorem all_not_implemented_iff (b : Byte) :
    Opcode.all.all (fun o => !(o.implemented && opcodeByte o == b)) = true ↔ ¬ ImplementedByte b := by
  simp [ImplementedByte, List.all_eq_true, Opcode.mem_all, ← Bool.not_eq_true, imp_iff_not_or]

theorem implementedByte_opcodeByte_iff (o : Opcode) : ImplementedByte (opcodeByte o) ↔ o.implemented = true := by
  constructor
  · rintro ⟨p, hp, hbyte⟩
    exact opcodeByte_injective hbyte ▸ hp
  · exact fun h => ⟨o, h, rfl⟩

theorem firstFault_of_high {s : State} (hpc : 255 < s.pc.toNat) :
    firstFault s = some (.addressOutOfRange .mem s.pc.toNat) := by
  rw [firstFault]
  exact if_pos hpc

theorem firstFault_of_unimplemented {s : State} (hpc : s.pc.toNat ≤ 255)
    (hb : ¬ ImplementedByte (s.byteAt s.pc.toNat)) :
    firstFault s = some (.invalidOpcode (s.byteAt s.pc.toNat)) := by
  rw [firstFault]
  exact (if_neg (by omega)).trans (if_pos ((all_not_implemented_iff _).mpr hb))

/-- The checks of `firstFault` from the operand fetch on, for a named opcode that is implemented. -/
def operandFault (o : Opcode) (pc : Nat) (a b : Byte) (s : State) : Option FaultCause :=
  if 1 ≤ o.arity ∧ 255 < pc + 1 then some (.addressOutOfRange .mem (pc + 1))
  else if o.arity = 2 ∧ 255 < pc + 2 then some (.addressOutOfRange .mem (pc + 2))
  else if 1 ≤ o.arity ∧ 7 < a.toNat then some (.addressOutOfRange .reg a.toNat)
  else if o.arity = 2 ∧ o ≠ .ldi ∧ 7 < b.toNat then some (.addressOutOfRange .reg b.toNat)
  else if o = .call ∧ 255 < pc + 2 then some (.addressOutOfRange .mem (pc + 2))
  else if (o = .div ∨ o = .mod) ∧ namedReg s b = 0 then some .divisionByZero
  else none

theorem firstFault_of_opcode {s : State} {o : Opcode} (hpc : s.pc.toNat ≤ 255) (himp : o.implemented = true)
    (hb : s.byteAt s.pc.toNat = opcodeByte o) :
    firstFault s = operandFault o s.pc.toNat (s.byteAt (s.pc.toNat + 1)) (s.byteAt (s.pc.toNat + 2)) s := by
  have hnamed : ¬ Opcode.all.all (fun p => !(p.implemented && opcodeByte p == opcodeByte o)) = true := by
    rw [all_not_implemented_iff, implementedByte_opcodeByte_iff]
    exact not_not_intro himp
  rw [firstFault, hb, operandFault]
  simp only [opcodeByte_div_eq_arity, opcodeByte_injective.eq_iff, opcodeByte_injective.ne_iff, ge_iff_le, gt_iff_lt,
    Nat.reduceLeDiff, Nat.reduceEqDiff, if_neg hnamed, if_neg (Nat.not_lt.mpr hpc)]

/-- A refused fetch raises the first fault. -/
theorem firstFault_of_fetch_error {s : State} {c : FaultCause} (h : fetchInstr s = .error c) :
    firstFault s = some c := by
  rcases fetchInstr_error h with ⟨hhigh, rfl⟩ | ⟨hpc, hnone, rfl⟩ | ⟨hpc, o, himp, hb, hout, rfl⟩
  · exact firstFault_of_high hhigh
  · refine firstFault_of_unimplemented hpc ?_
    rintro ⟨o, -, ho⟩
    rw [← ho, decodeOpcode_opcodeByte] at hnone
    cases hnone
  · rw [operandCount_eq_arity] at hout
    rw [firstFault_of_opcode hpc himp hb, operandFault]
    have harity := o.arity_le_two
    by_cases htop : s.pc.toNat = 255
    · rw [if_pos (by omega), htop]
    · rw [if_neg (by omega), if_pos (by omega), show s.pc.toNat + 2 = 256 by omega]

/-- Checks one after the other: a later one counts only where the earlier ones do not fail. -/
theorem ite_some_or {α : Type} (p : Prop) [Decidable p] (x : α) (b c : Option α) :
    (if p then some x else b).or c = if p then some x else b.or c := by
  split <;> rfl

/-- The checks after the operand fetch are the checks of the fetched instruction. -/
theorem operandFault_eq_checkFault {i : Instr} {s : State} {a b : Byte} (himp : i.opcode.implemented = true)
    (hfit : s.pc.toNat + i.operands.length ≤ 255) (hops : i.operands = [a, b].take i.operands.length) :
    operandFault i.opcode s.pc.toNat a b s = checkFault i s := by
  cases i with
  | nop | hlt | ret => rfl
  | push | pop | prn | jmp | jeq | jne | inc | dec | not | call =>
    obtain rfl := List.head_eq_of_cons_eq hops
    have hin : ¬ 255 ≤ s.pc.toNat := Nat.not_le.mpr hfit
    simp [operandFault, checkFault, ite_some_or, regFault, Opcode.arity, Instr.opcode, hin]
  | ldi | add | sub | mul | div | mod | cmp | and | or | xor | shl | shr =>
    obtain ⟨rfl, hb⟩ := List.cons.inj hops
    obtain rfl := List.head_eq_of_cons_eq hb
    have hin : ¬ 255 < s.pc.toNat + 2 := Nat.not_lt.mpr hfit
    have hin' : ¬ 255 ≤ s.pc.toNat := by omega
    simp [operandFault, checkFault, ite_some_or, regFault, Opcode.arity, Instr.opcode, hin, hin']
  | iret | pra | int | jgt | jlt | jle | jge | ld | st => cases himp

/-- An instruction has at most two operand bytes, so its positions are the first ones of two. -/
theorem take_range_operands_length (i : Instr) :
    (List.range 2).take i.operands.length = List.range i.operands.length := by
  cases i <;> rfl

/-- The first fault of a step that executes an instruction is the first that the instruction meets. -/
theorem firstFault_of_fetch_ok {s : State} {i : Instr} (h : fetchInstr s = .ok i) :
    firstFault s = checkFault i s := by
  obtain ⟨hpc, hb, hops⟩ := fetchInstr_ok h
  by_cases himp : i.opcode.implemented = true
  · obtain ⟨hfit, hbytes⟩ := hops himp
    rw [firstFault_of_opcode hpc himp hb]
    refine operandFault_eq_checkFault himp hfit (hbytes.trans ?_)
    rw [← take_range_operands_length, List.map_take]
    rfl
  · have hbyte : ¬ ImplementedByte (s.byteAt s.pc.toNat) := by
      rwa [hb, implementedByte_opcodeByte_iff]
    rw [firstFault_of_unimplemented hpc hbyte, hb, checkFault_of_reserved (by simpa using himp)]

/-- Settles O18: the fetch raises the first fault, or answers an instruction whose first failing check is the first
fault; where no check fails the instruction has an effect, which does not touch the record. -/
theorem firstFaultIsRaised : Obligations.FirstFaultIsRaised := by
  intro s hr
  cases hf : fetchInstr s with
  | error c =>
    rw [firstFault_of_fetch_error hf, step_of_fetch_error hr hf]
    refine ⟨fun c' hc => ?_, fun hnone => absurd hnone (Option.some_ne_none c)⟩
    cases hc
    exact faultsWith_raise c s
  | ok i =>
    rw [firstFault_of_fetch_ok hf, step_of_fetch_ok hr hf]
    refine ⟨fun c => faultsWith_of_checkFault, fun hnone => ?_⟩
    obtain ⟨t, he⟩ := effect_of_checkFault_eq_none hnone
    refine ⟨t, exec_of_effect he, ?_⟩
    by_cases hi : i = .hlt
    · subst hi
      subst he
      exact ⟨nofun, rfl⟩
    · obtain ⟨hrun, hfault⟩ := he.keeps_run_and_fault hi
      rw [hrun, hr]
      exact ⟨nofun, hfault⟩

/-- Settles O13: an unimplemented byte at pc is the first fault. -/
theorem unimplementedOpcodeFaults : Obligations.UnimplementedOpcodeFaults := by
  intro s hr hpc hb
  exact (firstFaultIsRaised s hr).1 _ (firstFault_of_unimplemented hpc hb)

/-- Settles O17: the only way into Faulted is a raise, which writes the run state and the record alone. -/
theorem faultsArePrecise : Obligations.FaultsArePrecise := by
  intro s t h hr ht
  obtain ⟨c, rfl⟩ := eq_raise_of_step_faulted h hr ht
  exact ⟨rfl, rfl, rfl, rfl, rfl, c, rfl⟩

/-- Settles O14, by induction on the number of steps: each step answers the state itself. -/
theorem terminalStatesAbsorb : Obligations.TerminalStatesAbsorb := by
  intro s k hr
  have hstep : step s = .next s := by rw [step_eq, if_neg hr]
  induction k with
  | zero => rfl
  | succ k ih => rw [run_succ_of_step (M := Sys2Proof.core) hstep, ih]

end Sys2Proof.Machine
end

section
/-! PROOFS. What an effect does to each part of the state: FL, memory, the registers and pc. -/

namespace Sys2Proof.Machine

/-- What a completion can do to FL and to the memory: CMP alone writes FL, PUSH and CALL alone store, one byte at the
lowered stack pointer (40_alu.md R125; 10_state.md section 6). -/
theorem Effect.fl_mem_cases {i : Instr} {s t : State} (h : Effect i s t) :
    (t.fl = s.fl ∨ i.opcode = .cmp ∧ ∃ x y, t.fl = compareFlags x y)
    ∧ (t.mem = s.mem ∨ (i.opcode = .push ∨ i.opcode = .call)
        ∧ ∃ v, t.mem = s.mem.store (s.decSp.reg .r7).toNat v) := by
  cases i with
  | nop | hlt | ret => subst h; exact ⟨.inl rfl, .inl rfl⟩
  | pop | prn | jmp | inc | dec | not | ldi =>
    obtain ⟨ra, -, rfl⟩ := h
    exact ⟨.inl rfl, .inl rfl⟩
  | jeq | jne =>
    obtain ⟨ra, -, rfl⟩ := h
    cases s.equalFlag <;> exact ⟨.inl rfl, .inl rfl⟩
  | push =>
    obtain ⟨ra, -, rfl⟩ := h
    exact ⟨.inl rfl, .inr ⟨.inl rfl, _, rfl⟩⟩
  | call =>
    obtain ⟨ra, -, -, rfl⟩ := h
    exact ⟨.inl rfl, .inr ⟨.inr rfl, _, rfl⟩⟩
  | cmp =>
    obtain ⟨ra, rb, -, -, rfl⟩ := h
    exact ⟨.inr ⟨rfl, _, _, rfl⟩, .inl rfl⟩
  | add | sub | mul | and | or | xor | shl | shr =>
    obtain ⟨ra, rb, -, -, rfl⟩ := h
    exact ⟨.inl rfl, .inl rfl⟩
  | div | mod =>
    obtain ⟨ra, rb, -, -, -, rfl⟩ := h
    exact ⟨.inl rfl, .inl rfl⟩
  | iret | pra | int | jgt | jlt | jle | jge | ld | st => exact h.elim

/-- Settles O23: an effect other than CMP's keeps FL, and so does a raise. -/
theorem onlyCmpWritesFlags : Obligations.OnlyCmpWritesFlags := by
  intro i s t h hi
  rcases exec_next h with he | ⟨c, rfl⟩
  · exact he.fl_mem_cases.1.resolve_right fun hcmp => hi hcmp.1
  · exact raise_fl s c

/-- Settles O45: an effect other than PUSH's and CALL's keeps the memory, theirs store one byte, and a raise keeps it. -/
theorem onlyPushAndCallWriteMemory : Obligations.OnlyPushAndCallWriteMemory := by
  intro i s t h a hne
  rcases exec_next h with he | ⟨c, rfl⟩
  · rcases he.fl_mem_cases.2 with hmem | ⟨hop, v, hmem⟩
    · exact absurd (congrArg (Memory.byteAt · a) hmem) hne
    · refine ⟨hop, by_contra fun ha => hne ?_⟩
      rw [State.byteAt, hmem, Memory.byteAt_store, if_neg ha]
      rfl
  · exact absurd (raise_byteAt s c a) hne

/-- A register write changes no register but the one it names. -/
theorem State.eq_of_setReg_reg_ne {s : State} {r q : Reg} {v : Byte} (h : (s.setReg r v).reg q ≠ s.reg q) : r = q := by
  by_contra hr
  exact h (by rw [State.setReg_reg, if_neg (Ne.symm hr)])

/-- Settles O48: the writes in each effect are to the register of the first operand or to the stack pointer, and a
raise writes none. -/
theorem onlyNamedRegistersChange : Obligations.OnlyNamedRegistersChange := by
  intro i s t h r hne
  rcases exec_next h with he | ⟨c, rfl⟩
  swap
  · exact absurd (raise_reg s c r) hne
  cases i with
  | nop | hlt => subst he; exact absurd rfl hne
  | prn | jmp =>
    obtain ⟨ra, -, rfl⟩ := he
    exact absurd rfl hne
  | jeq | jne =>
    obtain ⟨ra, -, rfl⟩ := he
    split at hne <;> exact absurd rfl hne
  | cmp =>
    obtain ⟨ra, rb, -, -, rfl⟩ := he
    exact absurd rfl hne
  | ret =>
    subst he
    obtain rfl := State.eq_of_setReg_reg_ne (s := s) hne
    exact .inr ⟨rfl, by decide⟩
  | push =>
    obtain ⟨ra, -, rfl⟩ := he
    obtain rfl := State.eq_of_setReg_reg_ne (s := s) hne
    exact .inr ⟨rfl, by simp [Instr.opcode]⟩
  | call =>
    obtain ⟨ra, -, -, rfl⟩ := he
    obtain rfl := State.eq_of_setReg_reg_ne (s := s) hne
    exact .inr ⟨rfl, by simp [Instr.opcode]⟩
  | pop =>
    obtain ⟨ra, rfl, rfl⟩ := he
    by_cases hr : r = .r7
    · exact .inr ⟨hr, by simp [Instr.opcode]⟩
    · rw [State.advance_reg, State.incSp_reg, if_neg hr] at hne
      obtain rfl := State.eq_of_setReg_reg_ne hne
      exact .inl ⟨rfl, by simp [Instr.opcode]⟩
  | inc | dec | not | ldi =>
    obtain ⟨ra, rfl, rfl⟩ := he
    obtain rfl := State.eq_of_setReg_reg_ne (s := s) hne
    exact .inl ⟨rfl, by simp [Instr.opcode]⟩
  | add | sub | mul | and | or | xor | shl | shr =>
    obtain ⟨ra, rb, rfl, -, rfl⟩ := he
    obtain rfl := State.eq_of_setReg_reg_ne (s := s) hne
    exact .inl ⟨rfl, by simp [Instr.opcode]⟩
  | div | mod =>
    obtain ⟨ra, rb, rfl, -, -, rfl⟩ := he
    obtain rfl := State.eq_of_setReg_reg_ne (s := s) hne
    exact .inl ⟨rfl, by simp [Instr.opcode]⟩
  | iret | pra | int | jgt | jlt | jle | jge | ld | st => exact he.elim

/-- A jump target is an address of memory. -/
theorem State.jumpTo_pc_le (s : State) (v : Byte) : (s.jumpTo v).pc.toNat ≤ 255 := by
  rw [State.jumpTo_pc_toNat]
  exact Nat.le_of_lt_succ v.isLt

/-- What a completion other than HLT's does to pc: an instruction that does not set pc goes its length on, and one that
does goes to a target or, as a conditional jump not taken, its length on (45_execution_loop.md R196). -/
theorem Effect.pc_cases {i : Instr} {s t : State} (hi : i ≠ .hlt) (h : Effect i s t) :
    (i.opcode.jump = false ∧ t.pc = (s.advance (1 + i.operands.length)).pc)
    ∨ (i.opcode.jump = true ∧ (t.pc.toNat ≤ 255
        ∨ (i.opcode = .jeq ∨ i.opcode = .jne) ∧ t.pc = (s.advance (1 + i.operands.length)).pc)) := by
  cases i with
  | hlt => exact absurd rfl hi
  | nop => subst h; exact .inl ⟨rfl, rfl⟩
  | ret => subst h; exact .inr ⟨rfl, .inl (s.jumpTo_pc_le _)⟩
  | push | pop | prn | inc | dec | not | ldi =>
    obtain ⟨ra, -, rfl⟩ := h
    exact .inl ⟨rfl, rfl⟩
  | jmp =>
    obtain ⟨ra, -, rfl⟩ := h
    exact .inr ⟨rfl, .inl (s.jumpTo_pc_le _)⟩
  | call =>
    obtain ⟨ra, -, -, rfl⟩ := h
    exact .inr ⟨rfl, .inl (State.jumpTo_pc_le _ _)⟩
  | jeq =>
    obtain ⟨ra, -, rfl⟩ := h
    cases s.equalFlag
    · exact .inr ⟨rfl, .inr ⟨.inl rfl, rfl⟩⟩
    · exact .inr ⟨rfl, .inl (s.jumpTo_pc_le _)⟩
  | jne =>
    obtain ⟨ra, -, rfl⟩ := h
    cases s.equalFlag
    · exact .inr ⟨rfl, .inl (s.jumpTo_pc_le _)⟩
    · exact .inr ⟨rfl, .inr ⟨.inr rfl, rfl⟩⟩
  | add | sub | mul | cmp | and | or | xor | shl | shr =>
    obtain ⟨ra, rb, -, -, rfl⟩ := h
    exact .inl ⟨rfl, rfl⟩
  | div | mod =>
    obtain ⟨ra, rb, -, -, -, rfl⟩ := h
    exact .inl ⟨rfl, rfl⟩
  | iret | pra | int | jgt | jlt | jle | jge | ld | st => exact h.elim

/-- Only an implemented instruction completes. -/
theorem Effect.implemented {i : Instr} {s t : State} (h : Effect i s t) : i.opcode.implemented = true := by
  cases i with
  | iret | pra | int | jgt | jlt | jle | jge | ld | st => exact h.elim
  | nop | hlt | ret | push | pop | prn | call | jmp | jeq | jne | inc | dec | not | ldi | add | sub | mul | div | mod
  | cmp | and | or | xor | shl | shr => rfl

end Sys2Proof.Machine
end

section
/-! PROOFS. How a step moves pc (45_execution_loop.md R196; 10_state.md R28), and the invariant of the machine. -/

namespace Sys2Proof.Machine

/-- An instruction that completes where it was fetched lies inside memory. -/
theorem Effect.fits {i : Instr} {s t : State} (he : Effect i s t) (hf : fetchInstr s = .ok i) :
    s.pc.toNat + (1 + i.operands.length) ≤ 256 := by
  obtain ⟨-, -, hops⟩ := fetchInstr_ok hf
  obtain ⟨hfit, -⟩ := hops he.implemented
  omega

/-- The address after an instruction that completes where it was fetched, which pc can hold. -/
theorem Effect.advance_pc_toNat {i : Instr} {s t : State} (he : Effect i s t) (hf : fetchInstr s = .ok i) :
    (s.advance (1 + i.operands.length)).pc.toNat = s.pc.toNat + (1 + i.operands.length) := by
  have hfit := he.fits hf
  exact State.advance_pc_toNat (by omega)

/-- Settles O49: the effect of the fetched instruction moves pc by its class, which bit 4 of the opcode byte gives;
HLT and a raise keep pc. -/
theorem stepMovesPc : Obligations.StepMovesPc := by
  intro s t hr h
  rcases step_next h with ⟨hn, -⟩ | ⟨-, i, hf, -, he⟩ | ⟨-, c, rfl⟩
  · exact absurd hr hn
  · by_cases hi : i = .hlt
    · subst hi
      subst he
      exact ⟨fun _ => rfl, nofun, nofun⟩
    obtain ⟨-, hb, -⟩ := fetchInstr_ok hf
    have hrun : t.run = .running := (he.keeps_run_and_fault hi).1.trans hr
    have hnext := he.advance_pc_toNat hf
    rw [hb, classify_length_opcodeByte, classify_setsPc_opcodeByte]
    refine ⟨fun hstop => absurd hrun hstop, fun _ hstraight => ?_, fun _ hsets => ?_⟩
    · rcases he.pc_cases hi with ⟨-, hpc⟩ | ⟨hjump, -⟩
      · rw [hpc, hnext]
      · exact absurd (hstraight.symm.trans hjump) Bool.false_ne_true
    · rcases he.pc_cases hi with ⟨hjump, -⟩ | ⟨-, htarget | ⟨hop, hpc⟩⟩
      · exact absurd (hjump.symm.trans hsets) Bool.false_ne_true
      · exact .inl htarget
      · have hlen : i.operands.length = 1 := by
          rw [← operandCount_opcodeByte]
          rcases hop with hop | hop <;> rw [hop, operandCount_eq_arity] <;> rfl
        rw [hpc, hnext, hlen]
        exact .inr ⟨rfl, hop.imp (congrArg opcodeByte) (congrArg opcodeByte)⟩
  · exact ⟨fun _ => rfl, nofun, nofun⟩

/-- Settles O50: the straight-line step ends at 256, where the fetch raises. -/
theorem runningOffTheTopFaults : Obligations.RunningOffTheTopFaults := by
  intro s t hr h ht hstraight hend
  obtain ⟨-, hpc, -⟩ := stepMovesPc s t hr h
  have htop : t.pc.toNat = 256 := (hpc ht hstraight).trans hend
  refine ⟨htop, ?_⟩
  rw [step_of_fetch_error ht (fetchInstr_of_high (by omega)), htop]
  exact faultsWith_raise _ t

/-- The fault that a step takes is the first one. -/
theorem firstFault_of_step_eq_raise {s : State} {c : FaultCause} (hr : s.run = .running)
    (h : step s = .next (raise c s)) : firstFault s = some c := by
  obtain ⟨hsome, hnone⟩ := firstFaultIsRaised s hr
  cases hff : firstFault s with
  | none =>
    obtain ⟨t, ht, hrun, -⟩ := hnone hff
    cases h.symm.trans ht
    exact absurd (raise_run s c) hrun
  | some d =>
    have hraise : raise c s = raise d s := Host.Outcome.next.inj (h.symm.trans (hsome d hff))
    have hfault := congrArg State.fault hraise
    rw [raise_fault, raise_fault] at hfault
    cases hfault
    rfl

/-- The first fault of a step that begins at an address of memory, or just above it, has a legal information value
(60_exceptions.md R236). -/
theorem causeLegal_of_firstFault {s : State} {c : FaultCause} (hpc : s.pc.toNat ≤ 256) (h : firstFault s = some c) :
    CauseLegal c := by
  have hbyte (k : Nat) : (s.byteAt k).toNat ≤ 255 := Nat.le_of_lt_succ (s.byteAt k).isLt
  unfold firstFault at h
  dsimp only at h
  split_ifs at h with hhigh hop hopA hopB ha hb hret
  all_goals cases h
  · exact ⟨hhigh, by omega⟩
  · exact (all_not_implemented_iff _).mp hop
  · exact ⟨hopA.2, by omega⟩
  · exact ⟨hopB.2, by omega⟩
  · exact ⟨ha.2, hbyte _⟩
  · exact ⟨hb.2.2, hbyte _⟩
  · exact ⟨hret.2, by omega⟩
  · trivial

/-- A raise with a legal information value keeps the invariant. -/
theorem Inv.raise {s : State} {c : FaultCause} (h : Inv s) (hc : CauseLegal c) : Inv (raise c s) where
  mem_wf := h.mem_wf
  fl_legal := h.fl_legal
  pc_le := h.pc_le
  fault_iff := ⟨fun _ => rfl, fun _ => rfl⟩
  fault_legal := by
    rintro f hf
    cases hf
    exact ⟨rfl, hc⟩
  halted_at_hlt := nofun

/-- Each value CMP writes is one of the legal ones (10_state.md R36). -/
theorem compareFlags_legal (x y : Byte) :
    compareFlags x y = 0x01 ∨ compareFlags x y = 0x02 ∨ compareFlags x y = 0x04 := by
  unfold compareFlags
  split
  · exact .inl rfl
  · split
    · exact .inr (.inl rfl)
    · exact .inr (.inr rfl)

/-- The completion of a fetched instruction keeps the invariant. -/
theorem Inv.effect {i : Instr} {s t : State} (h : Inv s) (hr : s.run = .running) (hf : fetchInstr s = .ok i)
    (he : Effect i s t) : Inv t := by
  have hnofault : s.fault = none := by
    rw [← Option.not_isSome_iff_eq_none, h.fault_iff, hr]
    nofun
  by_cases hi : i = .hlt
  · subst hi
    subst he
    exact
      { mem_wf := h.mem_wf, fl_legal := h.fl_legal, pc_le := h.pc_le
        fault_iff := by rw [State.halt_fault, hnofault, State.halt_run]; exact ⟨nofun, nofun⟩
        fault_legal := by rw [State.halt_fault, hnofault]; nofun
        halted_at_hlt := fun _ => (fetchInstr_eq_hlt_iff s).mp hf }
  obtain ⟨hrun, hfault⟩ := he.keeps_run_and_fault hi
  rw [hr] at hrun
  rw [hnofault] at hfault
  obtain ⟨hfl, hmem⟩ := he.fl_mem_cases
  have hfits := he.fits hf
  have hnext := he.advance_pc_toNat hf
  refine { mem_wf := ?_, fl_legal := ?_, pc_le := ?_, fault_iff := ?_, fault_legal := ?_, halted_at_hlt := ?_ }
  · rcases hmem with hmem | ⟨-, v, hmem⟩
    · rw [hmem]
      exact h.mem_wf
    · rw [hmem]
      exact Memory.wf_store s.mem _ v (Nat.le_of_lt_succ (s.decSp.reg .r7).isLt) h.mem_wf
  · rcases hfl with hfl | ⟨-, x, y, hfl⟩
    · rw [hfl]
      exact h.fl_legal
    · rw [hfl]
      exact .inr (compareFlags_legal x y)
  · rcases he.pc_cases hi with ⟨-, hpc⟩ | ⟨-, htarget | ⟨-, hpc⟩⟩
    · rw [hpc]
      omega
    · omega
    · rw [hpc]
      omega
  · rw [hfault, hrun]
    exact ⟨nofun, nofun⟩
  · rw [hfault]
    nofun
  · rw [hrun]
    nofun

/-- Settles O47: a terminal state stays, the effect of the fetched instruction keeps the invariant, and a raise is of
the first fault, whose information value is legal. -/
theorem stepKeepsInvariant : Obligations.StepKeepsInvariant := by
  intro s t hinv h
  rcases step_next h with ⟨-, rfl⟩ | ⟨hr, i, hf, -, he⟩ | ⟨hr, c, rfl⟩
  · exact hinv
  · exact hinv.effect hr hf he
  · exact hinv.raise (causeLegal_of_firstFault hinv.pc_le (firstFault_of_step_eq_raise hr h))

/-- Settles O46: nothing is listed in memory, and pc and FL are 0. -/
theorem invariantHoldsAtReset : Obligations.InvariantHoldsAtReset where
  mem_wf := reset_mem_wf
  fl_legal := .inl rfl
  pc_le := by decide
  fault_iff := ⟨nofun, nofun⟩
  fault_legal := nofun
  halted_at_hlt := nofun

end Sys2Proof.Machine
end

section
/-! PROOFS. The canonical form of a memory is unique (log entry 15), and the program load puts each byte at its address
(50_interfaces.md R212). -/

namespace Sys2Proof.Machine

/-- A canonical memory from `lo` up lists nothing below `lo`. -/
theorem Memory.byteAt_of_lt_of_wfFrom {m : Memory} {lo a : Nat} (hm : Memory.wfFrom lo m = true) (ha : a < lo) :
    m.byteAt a = Memory.unlisted := by
  induction m generalizing lo with
  | nil => rfl
  | cons c m ih =>
    obtain ⟨k, v⟩ := c
    simp only [Memory.wfFrom, Bool.and_eq_true, decide_eq_true_eq] at hm
    obtain ⟨⟨⟨hk, -⟩, -⟩, htail⟩ := hm
    rw [Memory.byteAt, if_neg (by omega), ih htail (by omega)]

/-- The first listed cell of a canonical memory differs from an unlisted one, and the rest is canonical above it. -/
theorem Memory.wfFrom_cons {lo k : Nat} {v : Byte} {m : Memory} (h : Memory.wfFrom lo ((k, v) :: m) = true) :
    Memory.byteAt ((k, v) :: m) k = v ∧ v ≠ Memory.unlisted ∧ Memory.wfFrom (k + 1) m = true := by
  simp only [Memory.wfFrom, Bool.and_eq_true, decide_eq_true_eq] at h
  obtain ⟨⟨-, hv⟩, htail⟩ := h
  exact ⟨by rw [Memory.byteAt, if_pos rfl], hv, htail⟩

/-- Two canonical memories with the same address in front that read alike have the same byte there, and their rests
read alike. -/
theorem Memory.byteAt_tail_eq {lo lo' k : Nat} {v w : Byte} {m n : Memory}
    (hm : Memory.wfFrom lo ((k, v) :: m) = true) (hn : Memory.wfFrom lo' ((k, w) :: n) = true)
    (h : ∀ a, Memory.byteAt ((k, v) :: m) a = Memory.byteAt ((k, w) :: n) a) :
    v = w ∧ ∀ a, m.byteAt a = n.byteAt a := by
  obtain ⟨hv, -, htail⟩ := Memory.wfFrom_cons hm
  obtain ⟨hw, -, htail'⟩ := Memory.wfFrom_cons hn
  refine ⟨by rw [← hv, h k, hw], fun a => ?_⟩
  by_cases ha : a = k
  · rw [ha, Memory.byteAt_of_lt_of_wfFrom htail k.lt_succ_self, Memory.byteAt_of_lt_of_wfFrom htail' k.lt_succ_self]
  · simpa only [Memory.byteAt, if_neg ha] using h a

/-- The address that a canonical memory lists first is listed first, or below, by every memory that reads like it. -/
theorem Memory.le_of_byteAt_eq {lo lo' k l : Nat} {v w : Byte} {m n : Memory}
    (hm : Memory.wfFrom lo ((k, v) :: m) = true) (hn : Memory.wfFrom lo' ((l, w) :: n) = true)
    (h : ∀ a, Memory.byteAt ((k, v) :: m) a = Memory.byteAt ((l, w) :: n) a) : l ≤ k := by
  obtain ⟨hv, hlisted, -⟩ := Memory.wfFrom_cons hm
  obtain ⟨-, -, htail⟩ := Memory.wfFrom_cons hn
  by_contra hlt
  rw [h k, Memory.byteAt, if_neg (by omega), Memory.byteAt_of_lt_of_wfFrom htail (by omega)] at hv
  exact hlisted hv.symm

/-- A canonical memory that lists a cell reads otherwise than the empty one. -/
theorem Memory.not_byteAt_eq_nil {lo k : Nat} {v : Byte} {m : Memory} (hm : Memory.wfFrom lo ((k, v) :: m) = true) :
    ¬ ∀ a, Memory.byteAt ((k, v) :: m) a = Memory.byteAt [] a := by
  obtain ⟨hv, hlisted, -⟩ := Memory.wfFrom_cons hm
  exact fun h => hlisted (hv.symm.trans (h k))

/-- Memories that are canonical from some address up and read alike are equal. -/
theorem Memory.eq_of_byteAt_eq {m n : Memory} {lo lo' : Nat} (hm : Memory.wfFrom lo m = true)
    (hn : Memory.wfFrom lo' n = true) (h : ∀ a, m.byteAt a = n.byteAt a) : m = n := by
  induction m generalizing n lo lo' with
  | nil =>
    cases n with
    | nil => rfl
    | cons c n => exact absurd (fun a => (h a).symm) (Memory.not_byteAt_eq_nil hn)
  | cons c m ih =>
    cases n with
    | nil => exact absurd h (Memory.not_byteAt_eq_nil hm)
    | cons d n =>
      obtain ⟨k, v⟩ := c
      obtain ⟨l, w⟩ := d
      obtain rfl : k = l :=
        Nat.le_antisymm (Memory.le_of_byteAt_eq hn hm fun a => (h a).symm) (Memory.le_of_byteAt_eq hm hn h)
      obtain ⟨rfl, hrest⟩ := Memory.byteAt_tail_eq hm hn h
      obtain ⟨-, -, htail⟩ := Memory.wfFrom_cons hm
      obtain ⟨-, -, htail'⟩ := Memory.wfFrom_cons hn
      rw [ih htail htail' hrest]

/-- Settles O44: canonical means canonical from address 0 up. -/
theorem canonicalMemoriesAreEqual : Obligations.CanonicalMemoriesAreEqual :=
  fun _ _ hm hn h => Memory.eq_of_byteAt_eq hm hn h

/-- Bytes placed inside memory are read at their addresses, and above the last one the memory reads as before. -/
theorem State.withBytes_byteAt_add (s : State) {a : Nat} {bs : List Byte} (h : a + bs.length ≤ 256) (k : Nat) :
    (s.withBytes a bs).byteAt (a + k) = bs.getD k (s.byteAt (a + k)) := by
  induction bs generalizing s a k with
  | nil => rfl
  | cons b bs ih =>
    rw [List.length_cons] at h
    rw [State.withBytes_cons s (by omega)]
    cases k with
    | zero => rw [State.withBytes_byteAt_of_lt _ (by omega), Nat.add_zero, State.setByte_byteAt, if_pos rfl]; rfl
    | succ k =>
      have haddr : a + (k + 1) = a + 1 + k := by omega
      rw [haddr, ih _ (by omega), State.setByte_byteAt, if_neg (by omega)]
      rfl

/-- Settles O3: a program that fits is placed from address 0 up in the memory after reset, which reads 0 everywhere. -/
theorem launchLoadsProgram : Obligations.LaunchLoadsProgram := by
  intro p
  refine ⟨fun hle => ?_, fun hgt => if_pos hgt⟩
  refine ⟨State.reset.withBytes 0 p, if_neg (Nat.not_lt.mpr hle), fun k => ?_, rfl, rfl, rfl, rfl, rfl, rfl⟩
  have hread := State.reset.withBytes_byteAt_add (a := 0) (bs := p) (by omega) k
  rw [Nat.zero_add] at hread
  exact hread

end Sys2Proof.Machine
end

section
/-! PROOFS. A step runs the instruction that the decoder reads from any number of bytes at pc (45_execution_loop.md
R191). -/

namespace Sys2Proof.Machine

/-- Bytes inside memory, listed by their addresses. -/
theorem bytesFrom_eq_map {s : State} {a n : Nat} (h : a + n ≤ 256) :
    bytesFrom s a n = (List.range n).map fun k => s.byteAt (a + k) := by
  induction n generalizing a with
  | zero => rfl
  | succ n ih =>
    rw [bytesFrom_succ, if_neg (by omega), ih (by omega), List.range_succ_eq_map, List.map_cons, List.map_map]
    simp only [Function.comp_def, Nat.succ_eq_add_one, Nat.add_zero, Nat.add_assoc, Nat.add_comm 1]

theorem length_bytesFrom_le (s : State) (a n : Nat) : (bytesFrom s a n).length ≤ n := by
  induction n generalizing a with
  | zero => exact Nat.le_refl 0
  | succ n ih =>
    rw [bytesFrom_succ]
    split
    · exact Nat.zero_le _
    · exact Nat.succ_le_succ (ih (a + 1))

/-- Bytes at pc that decode to an implemented instruction hold all its operands, so the fetch answers it. -/
theorem fetchInstr_of_decode_implemented {s : State} {n : Nat} {i : Instr} {rest : List Byte}
    (himp : i.opcode.implemented = true) (hpc : s.pc.toNat ≤ 255)
    (hb : s.byteAt s.pc.toNat = opcodeByte i.opcode)
    (h : buildInstr i.opcode (bytesFrom s (s.pc.toNat + 1) n) = .ok (i, rest)) : fetchInstr s = .ok i := by
  have harity : i.opcode.arity ≤ n := by
    have hlen := congrArg List.length (eq_operands_append_of_buildInstr (.inl himp) h)
    have hbytes := length_bytesFrom_le s (s.pc.toNat + 1) n
    rw [List.length_append, ← operandCount_opcodeByte, operandCount_eq_arity] at hlen
    omega
  rw [fetchInstr_of_opcode hpc hb, operandCount_eq_arity, ← take_bytesFrom s _ harity, buildInstr_take_arity h]

/-- Settles O10: an implemented instruction is what the fetch answers; a reserved one takes its fault whatever bytes
follow the opcode byte, also where they were not among the decoded ones. -/
theorem stepRunsDecodedInstruction : Obligations.StepRunsDecodedInstruction := by
  intro s n i rest hr hfit h
  rw [← bytesFrom_eq_map hfit] at h
  cases n with
  | zero => cases h
  | succ n =>
    have hpc : s.pc.toNat ≤ 255 := by omega
    rw [bytesFrom_succ, if_neg (by omega)] at h
    obtain ⟨hb, hbuild⟩ := decode_cons_eq_ok h
    by_cases himp : i.opcode.implemented = true
    · exact step_of_fetch_ok hr (fetchInstr_of_decode_implemented himp hpc hb hbuild)
    · have hbyte : ¬ ImplementedByte (s.byteAt s.pc.toNat) := by
        rwa [hb, implementedByte_opcodeByte_iff]
      have hstep : step s = _ := unimplementedOpcodeFaults s hr hpc hbyte
      rw [hstep, exec_reserved (by simpa using himp), hb]
      rfl

end Sys2Proof.Machine
end

section
/-! PROOFS. The ALU instructions: their results as arithmetic on the register values (40_alu.md sections 2 and 3). -/

namespace Sys2Proof.Machine

/-- An instruction that sets one register and goes on writes exactly that register. -/
theorem writesRegister_of_exec {i : Instr} {s : State} {rd : Reg} {w : Byte} {v len : Nat}
    (h : exec i s = .next ((s.setReg rd w).advance len)) (hv : w.toNat = v) : WritesRegister i s rd v len := by
  refine ⟨_, h, ?_, rfl, s.setReg_advance_frame rd w len⟩
  rw [State.advance_reg, State.setReg_reg, if_pos rfl, hv]

/-- A number below 256 is its own residue. -/
theorem byte_toNat_mod (x : Byte) : x.toNat % 256 = x.toNat := Nat.mod_eq_of_lt x.isLt

/-- A number at most a byte's value is its own residue. -/
theorem mask8_natCast_toNat_of_le {n : Nat} {x : Byte} (h : n ≤ x.toNat) : (mask8 (n : Int)).toNat = n := by
  rw [mask8_natCast_toNat, Nat.mod_eq_of_lt (h.trans_lt x.isLt)]

theorem aluMul_toNat (x y : Byte) : (aluMul x y).toNat = x.toNat * y.toNat % 256 := by
  rw [aluMul, ← Nat.cast_mul, mask8_natCast_toNat]

theorem aluAnd_toNat (x y : Byte) : (aluAnd x y).toNat = (x.toNat &&& y.toNat) % 256 := by
  rw [aluAnd, ← BitVec.toNat_and, byte_toNat_mod]

theorem aluOr_toNat (x y : Byte) : (aluOr x y).toNat = (x.toNat ||| y.toNat) % 256 := by
  rw [aluOr, ← BitVec.toNat_or, byte_toNat_mod]

theorem aluXor_toNat (x y : Byte) : (aluXor x y).toNat = (x.toNat ^^^ y.toNat) % 256 := by
  rw [aluXor, ← BitVec.toNat_xor, byte_toNat_mod]

theorem aluShl_toNat (x y : Byte) : (aluShl x y).toNat = x.toNat * 2 ^ y.toNat % 256 := by
  rw [aluShl, ← mask8_natCast_toNat, Nat.cast_mul, Nat.cast_pow, Nat.cast_ofNat]

theorem aluShr_toNat (x y : Byte) : (aluShr x y).toNat = x.toNat / 2 ^ y.toNat % 256 :=
  mask8_natCast_toNat _

theorem aluSub_toNat (x y : Byte) : (aluSub x y).toNat = (((x.toNat : Int) - y.toNat) % 256).toNat :=
  mask8_toNat _

theorem aluInc_toNat (x : Byte) : (aluInc x).toNat = (x.toNat + 1) % 256 := by
  rw [aluInc, ← Nat.cast_succ, mask8_natCast_toNat]

theorem aluDec_toNat (x : Byte) : (aluDec x).toNat = (((x.toNat : Int) - 1) % 256).toNat :=
  mask8_toNat _

theorem aluNot_toNat (x : Byte) : (aluNot x).toNat = 255 - x.toNat := by
  have hx := x.isLt
  rw [aluNot, mask8_toNat]
  omega

theorem aluDiv_toNat (x y : Byte) : (aluDiv x y).toNat = x.toNat / y.toNat :=
  mask8_natCast_toNat_of_le (Nat.div_le_self _ _)

theorem aluMod_toNat (x y : Byte) : (aluMod x y).toNat = x.toNat % y.toNat :=
  mask8_natCast_toNat_of_le (Nat.mod_le _ _)

/-- Settles O19: each instruction writes its ALU function of the registers, whose value is the stated one; a quotient,
a remainder and a right shift do not exceed the dividend. -/
theorem aluResultsAreMasked : Obligations.AluResultsAreMasked := by
  intro s ra rb
  have hle : (s.reg ra).toNat ≤ 255 := Nat.le_of_lt_succ (s.reg ra).isLt
  exact ⟨writesRegister_of_exec (exec_add_regByte ra rb s) (aluAdd_toNat _ _),
    writesRegister_of_exec (exec_mul_regByte ra rb s) (aluMul_toNat _ _),
    writesRegister_of_exec (exec_and_regByte ra rb s) (aluAnd_toNat _ _),
    writesRegister_of_exec (exec_or_regByte ra rb s) (aluOr_toNat _ _),
    writesRegister_of_exec (exec_xor_regByte ra rb s) (aluXor_toNat _ _),
    writesRegister_of_exec (exec_shl_regByte ra rb s) (aluShl_toNat _ _),
    writesRegister_of_exec (exec_shr_regByte ra rb s) (aluShr_toNat _ _),
    writesRegister_of_exec (exec_sub_regByte ra rb s) (aluSub_toNat _ _),
    writesRegister_of_exec (exec_inc_regByte ra s) (aluInc_toNat _),
    writesRegister_of_exec (exec_dec_regByte ra s) (aluDec_toNat _),
    writesRegister_of_exec (exec_not_regByte ra s) (aluNot_toNat _),
    (Nat.div_le_self _ _).trans hle, (Nat.mod_le _ _).trans hle, (Nat.div_le_self _ _).trans hle⟩

/-- Shifting left by 8 or more leaves no bit of the byte (40_alu.md R131, decision D12). -/
theorem aluShl_of_le {y : Byte} (h : 8 ≤ y.toNat) (x : Byte) : (aluShl x y).toNat = 0 := by
  have hdvd : 2 ^ 8 ∣ 2 ^ y.toNat := Nat.pow_dvd_pow 2 h
  rw [aluShl_toNat]
  exact Nat.mod_eq_zero_of_dvd (hdvd.mul_left x.toNat)

/-- Shifting right by 8 or more leaves no bit of the byte (40_alu.md R131, decision D12). -/
theorem aluShr_of_le {y : Byte} (h : 8 ≤ y.toNat) (x : Byte) : (aluShr x y).toNat = 0 := by
  have hlt : x.toNat < 2 ^ y.toNat := x.isLt.trans_le (Nat.pow_le_pow_right (by decide) h)
  rw [aluShr_toNat, Nat.div_eq_of_lt hlt]

theorem aluShl_zero (x : Byte) : (aluShl x 0).toNat = x.toNat := by
  rw [aluShl_toNat, show (0 : Byte).toNat = 0 from rfl, Nat.pow_zero, Nat.mul_one, byte_toNat_mod]

theorem aluShr_zero (x : Byte) : (aluShr x 0).toNat = x.toNat := by
  rw [aluShr_toNat, show (0 : Byte).toNat = 0 from rfl, Nat.pow_zero, Nat.div_one, byte_toNat_mod]

/-- Settles O20: the count is the whole register, and 2 to a count of 8 or more is a multiple of 256. -/
theorem largeShiftCountsGiveZero : Obligations.LargeShiftCountsGiveZero := by
  refine fun s ra rb => ⟨fun hcount => ⟨?_, ?_⟩, fun hzero => ⟨?_, ?_⟩⟩
  · exact writesRegister_of_exec (exec_shl_regByte ra rb s) (aluShl_of_le hcount _)
  · exact writesRegister_of_exec (exec_shr_regByte ra rb s) (aluShr_of_le hcount _)
  · exact writesRegister_of_exec (exec_shl_regByte ra rb s) (by rw [hzero, aluShl_zero])
  · exact writesRegister_of_exec (exec_shr_regByte ra rb s) (by rw [hzero, aluShr_zero])

/-- Settles O21: DIV and MOD write the quotient and the remainder, and for divisor 0 the check of the divisor is the
one that fails. -/
theorem divModSplitTheDividend : Obligations.DivModSplitTheDividend := by
  refine fun s ra rb => ⟨fun hd => ?_, fun hd => ?_⟩
  · have hne : s.reg rb ≠ 0 := fun h => hd (by rw [h]; rfl)
    refine ⟨_, _, (Nat.div_add_mod' _ _).symm, Nat.mod_lt _ (Nat.pos_of_ne_zero hd), ?_, ?_⟩
    · exact writesRegister_of_exec ((exec_div_regByte ra rb s).trans (if_neg hne)) (aluDiv_toNat _ _)
    · exact writesRegister_of_exec ((exec_mod_regByte ra rb s).trans (if_neg hne)) (aluMod_toNat _ _)
  · have hzero : s.reg rb = 0 := BitVec.eq_of_toNat_eq hd
    exact ⟨(exec_div_regByte ra rb s).trans (if_pos hzero), (exec_mod_regByte ra rb s).trans (if_pos hzero)⟩

/-- What CMP writes, by the values compared (40_alu.md R117, decision D30). -/
theorem compareFlags_eq (x y : Byte) : compareFlags x y =
    if x.toNat = y.toNat then 0x01 else if y.toNat < x.toNat then 0x02 else 0x04 := by
  simp only [compareFlags, BitVec.toNat_inj, flagE, flagG, flagL, gt_iff_lt]

/-- Each value CMP writes has one flag bit, which says how the values compare (10_state.md R33 to R36). -/
theorem compareFlags_bits (x y : Byte) :
    (compareFlags x y).getLsbD 0 = decide (x.toNat = y.toNat)
    ∧ (compareFlags x y).getLsbD 1 = decide (y.toNat < x.toNat)
    ∧ (compareFlags x y).getLsbD 2 = decide (x.toNat < y.toNat) := by
  rw [compareFlags_eq]
  rcases Nat.lt_trichotomy x.toNat y.toNat with hlt | heq | hgt
  · rw [if_neg hlt.ne, if_neg hlt.asymm, decide_eq_false hlt.ne, decide_eq_false hlt.asymm, decide_eq_true hlt]
    decide
  · rw [if_pos heq, decide_eq_true heq, decide_eq_false heq.not_gt, decide_eq_false heq.not_lt]
    decide
  · rw [if_neg hgt.ne', if_pos hgt, decide_eq_false hgt.ne', decide_eq_true hgt, decide_eq_false hgt.asymm]
    decide

/-- Settles O22: the comparison has three cases, each with its value of FL and its flag bit. -/
theorem cmpSetsExactlyOneFlag : Obligations.CmpSetsExactlyOneFlag := by
  intro s ra rb
  obtain ⟨hequal, hgreater, hless⟩ := compareFlags_bits (s.reg ra) (s.reg rb)
  exact ⟨_, exec_cmp_regByte ra rb s, compareFlags_eq _ _, hequal, hgreater, hless, rfl, fun _ _ => rfl, fun _ => rfl,
    rfl, rfl, rfl⟩

end Sys2Proof.Machine
end

section
/-! PROOFS. The control-flow and stack instructions (41_control_flow.md section 2, 42_stack.md section 2), and a store
seen by the next fetch (20_memory.md section 8). -/

namespace Sys2Proof.Machine

/-- Settles O25: JMP sets pc and no other part of the state. -/
theorem jmpGoesToRegister : Obligations.JmpGoesToRegister := fun s ra =>
  ⟨_, exec_jmp_regByte ra s, s.jumpTo_pc_toNat _, fun _ _ => rfl, fun _ => rfl, rfl, rfl, rfl, rfl⟩

/-- E is bit 0 of FL, as a digit of its value (10_state.md R33). -/
theorem State.equalFlag_eq (s : State) : s.equalFlag = decide (s.fl.toNat % 2 = 1) := by
  rw [State.equalFlag, Byte.getLsbD_eq_decide, Nat.pow_zero, Nat.div_one]

/-- Settles O26: for each parity of FL one of the two jumps and the other goes on, which change pc alone. -/
theorem conditionalJumps : Obligations.ConditionalJumps := by
  intro s ra
  have hpc := s.jumpTo_pc_toNat (s.reg ra)
  rw [exec_jeq_regByte, exec_jne_regByte, s.equalFlag_eq]
  by_cases hset : s.fl.toNat % 2 = 1
  · rw [decide_eq_true hset]
    exact ⟨⟨s.jumpTo (s.reg ra), rfl, fun _ => hpc, by omega, fun _ _ => rfl, fun _ => rfl, rfl, rfl, rfl, rfl⟩,
      ⟨s.advance 2, rfl, by omega, fun _ => rfl, fun _ _ => rfl, fun _ => rfl, rfl, rfl, rfl, rfl⟩⟩
  · rw [decide_eq_false hset]
    exact ⟨⟨s.advance 2, rfl, fun h => absurd h hset, fun _ => rfl, fun _ _ => rfl, fun _ => rfl, rfl, rfl, rfl, rfl⟩,
      ⟨s.jumpTo (s.reg ra), rfl, fun _ => hpc, fun h => absurd h hset, fun _ _ => rfl, fun _ => rfl, rfl, rfl, rfl,
        rfl⟩⟩

/-- RET's stack pointer, and POP's, on naturals (20_memory.md R58). -/
theorem mask8_add_one_toNat (b : Byte) : (mask8 ((b.toNat : Int) + 1)).toNat = (b.toNat + 1) % 256 := by
  rw [← Nat.cast_succ, mask8_natCast_toNat]

/-- Settles O29: RET jumps to the byte on top of the stack and takes the stack pointer up. -/
theorem retPopsReturnAddress : Obligations.RetPopsReturnAddress := by
  intro s
  refine ⟨_, exec_ret s, s.jumpTo_pc_toNat _, ?_, ?_, fun _ => rfl, rfl, rfl, rfl, rfl⟩
  · rw [State.incSp_reg, if_pos rfl]
    exact mask8_add_one_toNat _
  · intro q hq
    rw [State.incSp_reg, if_neg (List.ne_of_not_mem_cons hq)]
    rfl

/-- Settles O27: CALL stores at the lowered stack pointer and jumps. -/
theorem callPushesReturnAddress : Obligations.CallPushesReturnAddress := by
  intro s ra hpc
  refine ⟨_, exec_call_regByte_of_le hpc ra, s.decSp_reg_r7_toNat, rfl, ?_, State.jumpTo_pc_toNat _ _, fun hr => ?_,
    s.decSp_regsKept, s.decSp.setByte_memKeptExcept _ _, rfl, rfl, rfl, rfl⟩
  · rw [State.jumpTo_byteAt, State.setByte_byteAt, if_pos rfl, BitVec.toNat_ofNat]
    omega
  · rw [State.jumpTo_pc_toNat, State.decSp_reg, if_neg hr]

/-- Settles O31: PUSH stores at the lowered stack pointer and goes on. -/
theorem pushStoresRegister : Obligations.PushStoresRegister := by
  intro s ra
  have hcell : ((s.decSp.setByte (s.decSp.reg .r7).toNat (s.decSp.reg ra)).advance 2).byteAt (s.decSp.reg .r7).toNat
      = s.decSp.reg ra := by
    rw [State.advance_byteAt, State.setByte_byteAt, if_pos rfl]
  refine ⟨_, exec_push_regByte ra s, s.decSp_reg_r7_toNat, rfl, hcell, fun hr => ?_, rfl, s.decSp_regsKept,
    s.decSp.setByte_memKeptExcept _ _, rfl, rfl, rfl, rfl⟩
  rw [hcell, State.decSp_reg, if_neg hr]

/-- Settles O32: POP writes the register and then takes the stack pointer, read after that write, up. -/
theorem popLoadsRegister : Obligations.PopLoadsRegister := by
  intro s ra
  refine ⟨_, exec_pop_regByte ra s, fun hr => ⟨?_, ?_⟩, ?_, rfl, ?_, fun _ => rfl, rfl, rfl, rfl, rfl⟩
  · rw [State.advance_reg, State.incSp_reg, if_neg hr, State.setReg_reg, if_pos rfl]
  · rw [State.advance_reg, State.incSp_reg, if_pos rfl, State.setReg_reg, if_neg (Ne.symm hr)]
    exact mask8_add_one_toNat _
  · rintro rfl
    rw [State.advance_reg, State.incSp_reg, if_pos rfl, State.setReg_reg, if_pos rfl]
    exact mask8_add_one_toNat _
  · intro q hq
    obtain ⟨hra, hr7⟩ : q ≠ ra ∧ q ≠ .r7 := by simpa using hq
    rw [State.advance_reg, State.incSp_reg, if_neg hr7, State.setReg_reg, if_neg hra]

/-- Settles O34: the step is PUSH, which leaves pc at the cell it wrote; the next fetch reads that cell. -/
theorem storeSeenByNextFetch : Obligations.StoreSeenByNextFetch := by
  intro s r hr hpc hne hb ha hsp
  have hf : fetchInstr s = .ok (.push (regByte r)) := by
    rw [fetchInstr_of_takeOne (o := .push) rfl rfl hb (by omega), ha]
  obtain ⟨t, ht, -, -, -, hcell, hpc', -, -, -, hrun, -⟩ := pushStoresRegister s r
  have hnext : t.pc.toNat = s.pc.toNat + 2 := by
    rw [hpc']
    exact State.advance_pc_toNat (n := 2) (by omega)
  rw [hsp, ← hnext] at hcell
  have hbyte : t.byteAt t.pc.toNat = s.reg r := hcell hne
  have htrun : t.run = .running := hrun.trans hr
  have htpc : t.pc.toNat ≤ 255 := by omega
  refine ⟨t, (step_of_fetch_ok hr hf).trans ht, htrun, hnext, ?_, fun hhlt => ?_, fun hundef => ?_⟩
  · rw [memRead_of_le htpc, hbyte]
  · have hfetch : fetchInstr t = .ok .hlt := (fetchInstr_eq_hlt_iff t).mpr ⟨htpc, hbyte.trans hhlt⟩
    exact ⟨t.halt, (step_of_fetch_ok htrun hfetch).trans (exec_hlt t), rfl⟩
  · rw [← hbyte] at hundef ⊢
    exact unimplementedOpcodeFaults t htrun htpc hundef

end Sys2Proof.Machine
end

section
/-! PROOFS. The reset state, the plain instructions (43_plain.md), and what the host sees (50_interfaces.md). -/

namespace Sys2Proof.Machine

/-- Settles O2: each field of the reset state is a parameter's value, and no cell is listed. -/
theorem resetWholeState : Obligations.ResetWholeState := by
  refine ⟨fun r hr => ?_, rfl, rfl, rfl, fun _ => rfl, rfl, rfl, rfl⟩
  cases r with
  | r7 => exact absurd rfl hr
  | r0 | r1 | r2 | r3 | r4 | r5 | r6 => rfl

/-- Settles O35: going on writes pc alone. -/
theorem nopOnlyAdvances : Obligations.NopOnlyAdvances := fun s =>
  ⟨_, exec_nop s, rfl, fun _ _ => rfl, fun _ => rfl, rfl, rfl, rfl, rfl⟩

/-- Settles O36: halting writes the run state alone. -/
theorem hltHalts : Obligations.HltHalts := fun s =>
  ⟨_, exec_hlt s, rfl, rfl, fun _ _ => rfl, fun _ => rfl, rfl, rfl, rfl⟩

/-- Settles O37: LDI sets its register and goes on. -/
theorem ldiLoadsImmediate : Obligations.LdiLoadsImmediate := fun s ra imm =>
  writesRegister_of_exec (exec_ldi_regByte ra imm s) rfl

/-- One byte more in the log is the output event of the step. -/
theorem outEvent_of_append_singleton {s t : State} {v : Byte} (h : t.out = s.out ++ [v]) : outEvent s t = some v := by
  rw [outEvent, h, List.drop_left]
  rfl

/-- Settles O38: PRN emits and goes on. -/
theorem prnEmitsRegister : Obligations.PrnEmitsRegister := fun s ra =>
  ⟨_, exec_prn_regByte ra s, rfl, outEvent_of_append_singleton rfl, rfl, fun _ _ => rfl, fun _ => rfl, rfl, rfl, rfl⟩

theorem statusOf_of_halted {s : State} (h : s.run = .halted) :
    statusOf s = { runState := .halted, faultKind := 0, faultPc := none, faultInfo := none } := by
  rw [statusOf, h]

theorem statusOf_raise (c : FaultCause) (s : State) : statusOf (raise c s) =
    { runState := .faulted, faultKind := faultCode c, faultPc := some s.pc, faultInfo := some (faultInfo c) } := rfl

/-- Settles O52: the status of a raised fault is made of its cause and the pc of the raise. -/
theorem statusTellsHaltFromFault : Obligations.StatusTellsHaltFromFault := by
  refine ⟨fun s => statusOf_of_halted, fun s t c h => ?_⟩
  obtain rfl : t = raise c s := Host.Outcome.next.inj h
  rw [statusOf_raise]
  refine ⟨rfl, rfl, ?_, ?_, ?_⟩
  · rintro b rfl
    exact ⟨rfl, rfl⟩
  · rintro rfl
    exact ⟨rfl, rfl⟩
  · rintro sp n rfl hn
    refine ⟨rfl, congrArg some ?_⟩
    rw [faultInfo, BitVec.toNat_ofNat, Nat.mod_eq_of_lt hn]

/-- The characters of the digits are those from '0' up. -/
theorem digitChar_toNat {n : Nat} (h : n < 10) : (digitChar n).toNat = 48 + n := by
  interval_cases n <;> rfl

/-- Only the digit 0 is written '0'. -/
theorem digitChar_ne_zero {n : Nat} (hpos : 0 < n) (h : n < 10) : digitChar n ≠ '0' := by
  intro hchar
  have hcode : (digitChar n).toNat = 48 := by rw [hchar]; rfl
  rw [digitChar_toNat h] at hcode
  omega

/-- Decimal digits read from the left, as a number. -/
def readDigits (n : Nat) (ds : List Nat) : Nat := ds.foldl (fun n d => 10 * n + d) n

/-- Reading the characters of digits reads the digits. -/
theorem foldl_map_digitChar {ds : List Nat} (h : ∀ d ∈ ds, d < 10) (n : Nat) :
    (ds.map digitChar).foldl (fun n c => 10 * n + (c.toNat - 48)) n = readDigits n ds := by
  induction ds generalizing n with
  | nil => rfl
  | cons d ds ih =>
    obtain ⟨hd, hds⟩ := List.forall_mem_cons.mp h
    rw [List.map_cons, List.foldl_cons, ih hds, digitChar_toNat hd, Nat.add_sub_cancel_left]
    rfl

/-- The line of a byte is written with one, two or three digits, by the byte's size; they read its value, and the first
of two or three is not 0. -/
theorem renderByte_eq_map_digitChar (v : Byte) : ∃ d ds, renderByte v = (d :: ds).map digitChar
    ∧ (∀ e ∈ d :: ds, e < 10) ∧ readDigits 0 (d :: ds) = v.toNat ∧ ds.length ≤ 2 ∧ (ds ≠ [] → 0 < d) := by
  have hv : v.toNat < 256 := v.isLt
  unfold renderByte
  generalize v.toNat = n at hv
  by_cases hone : n < 10
  · refine ⟨n, [], if_pos hone, ?_, ?_, by decide, fun h => absurd rfl h⟩
    · simpa using hone
    · simp [readDigits]
  by_cases htwo : n < 100
  · refine ⟨n / 10, [n % 10], (if_neg hone).trans (if_pos htwo), ?_, ?_, Nat.le_succ 1, fun _ => by omega⟩
    · simp only [List.forall_mem_cons]
      exact ⟨by omega, by omega, nofun⟩
    · simp only [readDigits, List.foldl_cons, List.foldl_nil]
      omega
  · refine ⟨n / 100, [n / 10 % 10, n % 10], (if_neg hone).trans (if_neg htwo), ?_, ?_, Nat.le_refl 2, fun _ => by omega⟩
    · simp only [List.forall_mem_cons]
      exact ⟨by omega, by omega, by omega, nofun⟩
    · simp only [readDigits, List.foldl_cons, List.foldl_nil]
      omega

/-- Settles O53: the characters of the line are digits that read the value, the first of two or three not 0. -/
theorem renderedLineIsShortestNumeral : Obligations.RenderedLineIsShortestNumeral := by
  intro v
  obtain ⟨d, ds, hline, hdigits, hvalue, hlen, hfirst⟩ := renderByte_eq_map_digitChar v
  rw [hline, foldl_map_digitChar hdigits, List.length_map, List.length_cons]
  refine ⟨hvalue, fun c hc => ?_, Nat.succ_pos _, Nat.succ_le_succ hlen, fun hlong => ?_⟩
  · obtain ⟨e, he, rfl⟩ := List.mem_map.mp hc
    have hlt := hdigits e he
    rw [digitChar_toNat hlt]
    omega
  · have hpos : 0 < d := hfirst (List.ne_nil_of_length_pos (Nat.lt_of_succ_lt_succ hlong))
    rw [List.map_cons, List.head?_cons]
    exact fun h => digitChar_ne_zero hpos (hdigits d List.mem_cons_self) (Option.some.inj h)

end Sys2Proof.Machine
end
